-- ==== Sys2Proof/Word.lean ====
section
/-! DEFINITION. Word types of the emu8 CPU engine (spec 00_scope.md R4, R5): all quantities are unsigned bit strings. -/

namespace Sys2Proof

/-- A memory byte, a general register, a timer (R4 `REG_W`, `TIMER_W`). -/
abbrev Byte := BitVec 8

/-- An instruction word, `pc`, `I`, a stack entry (R4 `INSTR_W`, `PC_W`, `I_W`, `STACK_W`). -/
abbrev Word := BitVec 16

/-- One hex digit of an instruction word (R9 "nibble", R46). -/
abbrev Nibble := BitVec 4

/-- The 12-bit address field `nnn` (R46). -/
abbrev Addr := BitVec 12

/-- A register number, or a key index: 0 to 15 (R48). -/
abbrev Reg := Fin 16

end Sys2Proof
end

