-- ==== Sys2Proof/Syntax.lean ====
section
/-! DEFINITION. The 35 operations of spec 30_encoding.md R50, one constructor per row of spec/opcode_table.json, in the
table's order. Operand fields as in R46 to R48. -/

namespace Sys2Proof

/-- An instruction. `x`, `y` are register numbers, `nn` an 8-bit immediate, `nnn` a 12-bit address, `n` a row count
(R48). `SHR` and `SHL` keep the `y` field, which is decoded and ignored (R98, R100). -/
inductive Instr where
  | cls
  | ret
  | sys (nnn : Addr)
  | jp (nnn : Addr)
  | call (nnn : Addr)
  | sei (x : Reg) (nn : Byte)
  | snei (x : Reg) (nn : Byte)
  | ser (x y : Reg)
  | ldi (x : Reg) (nn : Byte)
  | addi (x : Reg) (nn : Byte)
  | mov (x y : Reg)
  | or (x y : Reg)
  | and (x y : Reg)
  | xor (x y : Reg)
  | add (x y : Reg)
  | sub (x y : Reg)
  | shr (x y : Reg)
  | subn (x y : Reg)
  | shl (x y : Reg)
  | sner (x y : Reg)
  | ldix (nnn : Addr)
  | jpv0 (nnn : Addr)
  | rnd (x : Reg) (nn : Byte)
  | drw (x y : Reg) (n : Fin 16)
  | skp (x : Reg)
  | sknp (x : Reg)
  | rddt (x : Reg)
  | wkey (x : Reg)
  | wrdt (x : Reg)
  | wrst (x : Reg)
  | addix (x : Reg)
  | font (x : Reg)
  | bcd (x : Reg)
  | stm (x : Reg)
  | ldm (x : Reg)
deriving DecidableEq, Repr

/-- The mnemonic of R50 and R55, as spec/opcode_table.json spells it. -/
def Instr.mnemonic : Instr → String
  | .cls => "CLS"
  | .ret => "RET"
  | .sys _ => "SYS"
  | .jp _ => "JP"
  | .call _ => "CALL"
  | .sei _ _ => "SEI"
  | .snei _ _ => "SNEI"
  | .ser _ _ => "SER"
  | .ldi _ _ => "LDI"
  | .addi _ _ => "ADDI"
  | .mov _ _ => "MOV"
  | .or _ _ => "OR"
  | .and _ _ => "AND"
  | .xor _ _ => "XOR"
  | .add _ _ => "ADD"
  | .sub _ _ => "SUB"
  | .shr _ _ => "SHR"
  | .subn _ _ => "SUBN"
  | .shl _ _ => "SHL"
  | .sner _ _ => "SNER"
  | .ldix _ => "LDIX"
  | .jpv0 _ => "JPV0"
  | .rnd _ _ => "RND"
  | .drw _ _ _ => "DRW"
  | .skp _ => "SKP"
  | .sknp _ => "SKNP"
  | .rddt _ => "RDDT"
  | .wkey _ => "WKEY"
  | .wrdt _ => "WRDT"
  | .wrst _ => "WRST"
  | .addix _ => "ADDIX"
  | .font _ => "FONT"
  | .bcd _ => "BCD"
  | .stm _ => "STM"
  | .ldm _ => "LDM"

end Sys2Proof
end

