-- ==== Sys2Proof/WellFormed.lean ====
section
/-! DEFINITION. Which terms of Instr are instructions that some word encodes. The field types carry every width; what is
left is R49's precedence: the words 0x00E0 and 0x00EE are CLS and RET, so no SYS has those addresses (R53, R76). -/

namespace Sys2Proof

/-- `SYS nnn` is every word with `op` = 0 other than 0x00E0 and 0x00EE (R53). -/
def sysAddressAllowed (nnn : Addr) : Bool := nnn != 0x0E0 && nnn != 0x0EE

/-- An instruction that some word encodes. -/
def Instr.wellFormed : Instr → Bool
  | .sys nnn => sysAddressAllowed nnn
  | .cls | .ret | .jp _ | .call _ => true
  | .sei _ _ | .snei _ _ | .ser _ _ | .ldi _ _ | .addi _ _ => true
  | .mov _ _ | .or _ _ | .and _ _ | .xor _ _ | .add _ _ | .sub _ _ => true
  | .shr _ _ | .subn _ _ | .shl _ _ | .sner _ _ => true
  | .ldix _ | .jpv0 _ | .rnd _ _ | .drw _ _ _ => true
  | .skp _ | .sknp _ | .rddt _ | .wkey _ | .wrdt _ | .wrst _ => true
  | .addix _ | .font _ | .bcd _ | .stm _ | .ldm _ => true

end Sys2Proof
end

