-- ==== Sys2Proof/Decode.lean ====
section
/-! DEFINITION. Decoding (spec 30_encoding.md R45 to R51, 40_step_engine.md R63, R64), the encoder, and the opcode map of
R50 as a list of rows. -/

namespace Sys2Proof

/-- The four nibbles of an instruction word (R46). -/
structure Fields where
  op : Nibble
  x : Nibble
  y : Nibble
  n : Nibble
deriving DecidableEq, Repr

/-- The decoder "splits the big-endian 16-bit instruction into four 4-bit nibbles" (R46, R63). -/
def fields (w : Word) : Fields :=
  { op := w.extractLsb' 12 4, x := w.extractLsb' 8 4, y := w.extractLsb' 4 4, n := w.extractLsb' 0 4 }

/-- `nn = y : n` (R46). -/
def Fields.nn (f : Fields) : Byte := f.y ++ f.n

/-- `nnn = x : y : n` (R46). -/
def Fields.nnn (f : Fields) : Addr := f.x ++ f.y ++ f.n

/-- A nibble read as a register number or a row count (R48). -/
def regOf (d : Nibble) : Reg := d.toFin

/-- A register number or a row count written as a nibble (R48). -/
def nibOf (x : Reg) : Nibble := BitVec.ofFin x

/-- `op` = 0: CLS and RET are tried before SYS (R49, R50 rows 1 to 3). -/
def decodeSystem (f : Fields) : Instr :=
  if f.nnn = 0x0E0 then .cls else if f.nnn = 0x0EE then .ret else .sys f.nnn

/-- `op` = 8: the ALU group, selected by `n` (R50 rows 11 to 19); no other `n` is an operation (conflict C6). -/
def decodeAlu (f : Fields) : Option Instr :=
  match f.n.toNat with
  | 0x0 => some (.mov (regOf f.x) (regOf f.y))
  | 0x1 => some (.or (regOf f.x) (regOf f.y))
  | 0x2 => some (.and (regOf f.x) (regOf f.y))
  | 0x3 => some (.xor (regOf f.x) (regOf f.y))
  | 0x4 => some (.add (regOf f.x) (regOf f.y))
  | 0x5 => some (.sub (regOf f.x) (regOf f.y))
  | 0x6 => some (.shr (regOf f.x) (regOf f.y))
  | 0x7 => some (.subn (regOf f.x) (regOf f.y))
  | 0xE => some (.shl (regOf f.x) (regOf f.y))
  | _ => none

/-- `op` = E: the key skips, selected by `nn` (R50 rows 25, 26). -/
def decodeKey (f : Fields) : Option Instr :=
  if f.nn = 0x9E then some (.skp (regOf f.x))
  else if f.nn = 0xA1 then some (.sknp (regOf f.x))
  else none

/-- `op` = F, selected by `nn` (R50 rows 27 to 35). -/
def decodeMisc (f : Fields) : Option Instr :=
  if f.nn = 0x07 then some (.rddt (regOf f.x))
  else if f.nn = 0x0A then some (.wkey (regOf f.x))
  else if f.nn = 0x15 then some (.wrdt (regOf f.x))
  else if f.nn = 0x18 then some (.wrst (regOf f.x))
  else if f.nn = 0x1E then some (.addix (regOf f.x))
  else if f.nn = 0x29 then some (.font (regOf f.x))
  else if f.nn = 0x33 then some (.bcd (regOf f.x))
  else if f.nn = 0x55 then some (.stm (regOf f.x))
  else if f.nn = 0x65 then some (.ldm (regOf f.x))
  else none

/-- The dispatch on the four fields (R49, R50, R64): `none` is an unrecognized word (R51). -/
def decodeFields (f : Fields) : Option Instr :=
  match f.op.toNat with
  | 0x0 => some (decodeSystem f)
  | 0x1 => some (.jp f.nnn)
  | 0x2 => some (.call f.nnn)
  | 0x3 => some (.sei (regOf f.x) f.nn)
  | 0x4 => some (.snei (regOf f.x) f.nn)
  | 0x5 => if f.n = 0 then some (.ser (regOf f.x) (regOf f.y)) else none
  | 0x6 => some (.ldi (regOf f.x) f.nn)
  | 0x7 => some (.addi (regOf f.x) f.nn)
  | 0x8 => decodeAlu f
  | 0x9 => if f.n = 0 then some (.sner (regOf f.x) (regOf f.y)) else none
  | 0xA => some (.ldix f.nnn)
  | 0xB => some (.jpv0 f.nnn)
  | 0xC => some (.rnd (regOf f.x) f.nn)
  | 0xD => some (.drw (regOf f.x) (regOf f.y) (regOf f.n))
  | 0xE => decodeKey f
  | 0xF => decodeMisc f
  | _ => none

/-- Why bytes decode to no instruction. -/
inductive DecodeError where
  /-- The word matches no row of R50 (R51). -/
  | unrecognized (w : Word)
  /-- Fewer than the two bytes of R45 are given; the step engine never gives so few. -/
  | truncated
deriving DecidableEq, Repr

/-- Decode one instruction word (R63, R64). -/
def decodeWord (w : Word) : Except DecodeError Instr :=
  match decodeFields (fields w) with
  | some i => .ok i
  | none => .error (.unrecognized w)

/-- Decode the first instruction of a byte sequence, high byte first (R33, R45); the answer holds the remaining bytes. -/
def decode : List Byte → Except DecodeError (Instr × List Byte)
  | hi :: lo :: rest =>
    match decodeWord (hi ++ lo) with
    | .ok i => .ok (i, rest)
    | .error e => .error e
  | _ => .error .truncated

/-- The word of an instruction, from the patterns of R50 and the operand syntax of R55. -/
def encodeWord : Instr → Word
  | .cls => 0x00E0
  | .ret => 0x00EE
  | .sys nnn => 0x0#4 ++ nnn
  | .jp nnn => 0x1#4 ++ nnn
  | .call nnn => 0x2#4 ++ nnn
  | .sei x nn => 0x3#4 ++ nibOf x ++ nn
  | .snei x nn => 0x4#4 ++ nibOf x ++ nn
  | .ser x y => 0x5#4 ++ nibOf x ++ nibOf y ++ 0x0#4
  | .ldi x nn => 0x6#4 ++ nibOf x ++ nn
  | .addi x nn => 0x7#4 ++ nibOf x ++ nn
  | .mov x y => 0x8#4 ++ nibOf x ++ nibOf y ++ 0x0#4
  | .or x y => 0x8#4 ++ nibOf x ++ nibOf y ++ 0x1#4
  | .and x y => 0x8#4 ++ nibOf x ++ nibOf y ++ 0x2#4
  | .xor x y => 0x8#4 ++ nibOf x ++ nibOf y ++ 0x3#4
  | .add x y => 0x8#4 ++ nibOf x ++ nibOf y ++ 0x4#4
  | .sub x y => 0x8#4 ++ nibOf x ++ nibOf y ++ 0x5#4
  | .shr x y => 0x8#4 ++ nibOf x ++ nibOf y ++ 0x6#4
  | .subn x y => 0x8#4 ++ nibOf x ++ nibOf y ++ 0x7#4
  | .shl x y => 0x8#4 ++ nibOf x ++ nibOf y ++ 0xE#4
  | .sner x y => 0x9#4 ++ nibOf x ++ nibOf y ++ 0x0#4
  | .ldix nnn => 0xA#4 ++ nnn
  | .jpv0 nnn => 0xB#4 ++ nnn
  | .rnd x nn => 0xC#4 ++ nibOf x ++ nn
  | .drw x y n => 0xD#4 ++ nibOf x ++ nibOf y ++ nibOf n
  | .skp x => 0xE#4 ++ nibOf x ++ 0x9E#8
  | .sknp x => 0xE#4 ++ nibOf x ++ 0xA1#8
  | .rddt x => 0xF#4 ++ nibOf x ++ 0x07#8
  | .wkey x => 0xF#4 ++ nibOf x ++ 0x0A#8
  | .wrdt x => 0xF#4 ++ nibOf x ++ 0x15#8
  | .wrst x => 0xF#4 ++ nibOf x ++ 0x18#8
  | .addix x => 0xF#4 ++ nibOf x ++ 0x1E#8
  | .font x => 0xF#4 ++ nibOf x ++ 0x29#8
  | .bcd x => 0xF#4 ++ nibOf x ++ 0x33#8
  | .stm x => 0xF#4 ++ nibOf x ++ 0x55#8
  | .ldm x => 0xF#4 ++ nibOf x ++ 0x65#8

/-- The words of an instruction: always one (R45, R54). -/
def encode (i : Instr) : List Word := [encodeWord i]

/-- The high byte of a word, which stands at the lower address (R33). -/
def hiByte (w : Word) : Byte := w.extractLsb' 8 8

/-- The low byte of a word, at the higher address (R33). -/
def loByte (w : Word) : Byte := w.extractLsb' 0 8

/-- The bytes of an instruction as memory holds them (R33). -/
def encodeBytes (i : Instr) : List Byte := [hiByte (encodeWord i), loByte (encodeWord i)]

/-- One row of the opcode map (R50): a word `w` matches when `w & mask = pattern`. -/
structure OpcodeRow where
  mnemonic : String
  mask : Word
  pattern : Word
deriving DecidableEq, Repr

/-- R50 rows 1 to 10. -/
def opcodeRowsA : List OpcodeRow :=
  [⟨"CLS", 0xFFFF, 0x00E0⟩, ⟨"RET", 0xFFFF, 0x00EE⟩, ⟨"SYS", 0xF000, 0x0000⟩, ⟨"JP", 0xF000, 0x1000⟩,
   ⟨"CALL", 0xF000, 0x2000⟩, ⟨"SEI", 0xF000, 0x3000⟩, ⟨"SNEI", 0xF000, 0x4000⟩, ⟨"SER", 0xF00F, 0x5000⟩,
   ⟨"LDI", 0xF000, 0x6000⟩, ⟨"ADDI", 0xF000, 0x7000⟩]

/-- R50 rows 11 to 24. -/
def opcodeRowsB : List OpcodeRow :=
  [⟨"MOV", 0xF00F, 0x8000⟩, ⟨"OR", 0xF00F, 0x8001⟩, ⟨"AND", 0xF00F, 0x8002⟩, ⟨"XOR", 0xF00F, 0x8003⟩,
   ⟨"ADD", 0xF00F, 0x8004⟩, ⟨"SUB", 0xF00F, 0x8005⟩, ⟨"SHR", 0xF00F, 0x8006⟩, ⟨"SUBN", 0xF00F, 0x8007⟩,
   ⟨"SHL", 0xF00F, 0x800E⟩, ⟨"SNER", 0xF00F, 0x9000⟩, ⟨"LDIX", 0xF000, 0xA000⟩, ⟨"JPV0", 0xF000, 0xB000⟩,
   ⟨"RND", 0xF000, 0xC000⟩, ⟨"DRW", 0xF000, 0xD000⟩]

/-- R50 rows 25 to 35. -/
def opcodeRowsC : List OpcodeRow :=
  [⟨"SKP", 0xF0FF, 0xE09E⟩, ⟨"SKNP", 0xF0FF, 0xE0A1⟩, ⟨"RDDT", 0xF0FF, 0xF007⟩, ⟨"WKEY", 0xF0FF, 0xF00A⟩,
   ⟨"WRDT", 0xF0FF, 0xF015⟩, ⟨"WRST", 0xF0FF, 0xF018⟩, ⟨"ADDIX", 0xF0FF, 0xF01E⟩, ⟨"FONT", 0xF0FF, 0xF029⟩,
   ⟨"BCD", 0xF0FF, 0xF033⟩, ⟨"STM", 0xF0FF, 0xF055⟩, ⟨"LDM", 0xF0FF, 0xF065⟩]

/-- The opcode map in the document's precedence order (R50). The decoder above does not use it; a statement says that the
two agree. -/
def opcodeRows : List OpcodeRow := opcodeRowsA ++ opcodeRowsB ++ opcodeRowsC

/-- The first row a word matches (R49). -/
def firstRow (w : Word) : Option OpcodeRow := opcodeRows.find? (fun r => w &&& r.mask == r.pattern)

/-- The word that an opcode-table row of `nbits` bits with value `w` stands for: the bits above `nbits` are 0. -/
def tableWord (nbits w : Nat) : Word := BitVec.ofNat 16 (w % 2 ^ nbits)

/-- What the decoder reads from a table row's word: the word is laid out high byte first and given to `decode`. -/
def decodeTableWord (nbits w : Nat) : Option Instr :=
  match decode [hiByte (tableWord nbits w), loByte (tableWord nbits w)] with
  | .ok (i, _) => some i
  | .error _ => none

end Sys2Proof
end

