-- ==== Sys2Proof/Config.lean ====
section
/-! DEFINITION. Sizes fixed for this hardware (spec 00_scope.md R4), the two borrow-flag senses (42_load_alu.md R103), and
the free value that stands for the random byte (40_step_engine.md R69). -/

namespace Sys2Proof.Config

/-- `MEM_SIZE` (R4): bytes of memory, addresses 0x000 to 0xFFF. -/
def memSize : Nat := 4096

/-- `PROG_BASE` (R4): where the program image is written and where `pc` starts. -/
def progBase : Nat := 0x200

/-- `ROM_MAX` (R4): 4096 − 0x200. -/
def romMax : Nat := 3584

/-- `GLYPH_BYTES` (R4). -/
def glyphBytes : Nat := 5

/-- The two values of the parameter `VF_SUB_SENSE` (R103). -/
inductive SubSense where
  /-- VF is 0 on a borrow and 1 otherwise. -/
  | notBorrow
  /-- VF is 1 on a borrow and 0 otherwise. -/
  | borrow
deriving DecidableEq, Repr

/-- The random byte of the k-th `RND` that runs in a step whose random byte the schedule does not give (R69, R101, D11).
A FREE VALUE: no body, so nothing can be proved of what it is. DESIGN CHOICE of form, safe (log 3). -/
opaque randomByte : Nat → Byte

end Sys2Proof.Config
end

