-- ==== Sys2Proof/Machine/State.lean ====
section
/-! DEFINITION. The state of the block (spec 10_state.md R10 to R26), the fault and refusal reasons, the host's events, and
the state right after reset (R25). -/

namespace Sys2Proof.Machine

/-- The fatal conditions of a step (60_exceptions.md R135). A faulting step changes nothing (R66), so each is SAFE: the
model stops where the block is stuck for good (R141; log 1). -/
inductive Fault where
  /-- Raised by the fetch with `pc ≥ 0x0FFF` and by DRW, BCD, STM, LDM on an address of 4096 or more (R136). Safe. -/
  | oobMemory
  /-- Raised by CALL with `sp = 16` (R136). Safe. -/
  | stackOverflow
  /-- Raised by RET with `sp = 0` (R136). Safe. -/
  | stackUnderflow
  /-- Raised by SKP and SKNP with `V[x] > 15` (R136, D9; log 11). Safe. -/
  | keyIndex
deriving DecidableEq, Repr

/-- Why the model has no meaning for a step. No instruction of this hardware is refused. -/
inductive Refusal where
  /-- Raised by an arm of exec that has no meaning yet. Safe. None is left. -/
  | notModelled (mnemonic : String)
deriving DecidableEq, Repr

/-- What a step reports (10_state.md R23, 40_step_engine.md R67). -/
inductive Report where
  | ok
  | unrecognized (w : Word)
  | fault (kind : Fault)
deriving DecidableEq, Repr

/-- The host's events (40_step_engine.md R60). `init rom` is the document's reset event `initialize(romBytes)`. A key index
is 0 to 15 by its type (R151, D18; log 17). -/
inductive Event where
  | init (rom : List Byte)
  | step (rnd : Byte)
  | tick
  | setKey (k : Fin 16) (down : Bool)
  | clearRedraw
deriving DecidableEq, Repr

/-- Memory as a list of cells in one canonical form (20_memory.md R30; log 18); its operations are in Machine/Ops.lean. -/
abbrev Memory := List Host.Cell

/-- The framebuffer, 32 rows of 64 pixels (R20). -/
abbrev Framebuffer := Vector (Vector Bool 64) 32

/-- The block's state. The last three fields are the model's OWN (log 2, log 3), not the machine's. -/
structure State where
  /-- `V[0]`..`V[15]` (R10, R11). -/
  v : Vector Byte 16
  /-- `I` (R16). -/
  i : Word
  /-- `pc` (R13). -/
  pc : Word
  /-- `stack[0]`..`stack[15]` (R17). -/
  stack : Vector Word 16
  /-- `sp`, a count 0 to 16 (R17). -/
  sp : Fin 17
  /-- `DT` (R18). -/
  dt : Byte
  /-- `ST` (R18). -/
  st : Byte
  /-- `fb` (R20). -/
  fb : Framebuffer
  /-- `redraw` (R19). -/
  redraw : Bool
  /-- `key[0]`..`key[15]`, true = down (R21). -/
  key : Vector Bool 16
  /-- `mem` (R22). -/
  mem : Memory
  /-- The last step's outcome (R23, D3; log 15). -/
  outcome : Report
  /-- The last tick's sound signal (R23, R149, D3; log 15). -/
  soundZero : Bool
  /-- MODEL'S OWN: the host's events still to come; when there are none left, every event is a step (log 2). -/
  agenda : List Event
  /-- MODEL'S OWN: the byte the host gives with the current step, none where the schedule gives none (log 3). -/
  rnd : Option Byte
  /-- MODEL'S OWN: how many random bytes RND has consumed (log 3). -/
  rndCount : Nat
deriving DecidableEq, Repr

/-- What one step of this machine answers. -/
abbrev Result := Host.Outcome State Fault Refusal

/-- The machine right after reset (R25), for an empty program image: every field zero but `pc`; memory lists nothing. -/
def State.reset : State :=
  { v := Vector.replicate 16 0
    i := 0
    pc := 0x0200
    stack := Vector.replicate 16 0
    sp := 0
    dt := 0
    st := 0
    fb := Vector.replicate 32 (Vector.replicate 64 false)
    redraw := false
    key := Vector.replicate 16 false
    mem := []
    outcome := .ok
    soundZero := false
    agenda := []
    rnd := none
    rndCount := 0 }

end Sys2Proof.Machine
end

