-- ==== Sys2Proof/Machine/Ops.lean ====
section
/-! DEFINITION. Named operations over memory, registers, the stack, the framebuffer and `pc`; raising a fault; the fetch.
Spec 20_memory.md, 10_state.md, 40_step_engine.md R62 to R67. -/

namespace Sys2Proof.Machine

/-! ## The font table -/

/-- Glyphs 0 to 7 of 93_implementation_defined.md G1. PRESUMED, unsafe (log 4): the spec does not give FONT's bytes. -/
def fontLow : List Byte :=
  [0xF0, 0x90, 0x90, 0x90, 0xF0,  0x20, 0x60, 0x20, 0x20, 0x70,
   0xF0, 0x10, 0xF0, 0x80, 0xF0,  0xF0, 0x10, 0xF0, 0x10, 0xF0,
   0x90, 0x90, 0xF0, 0x10, 0x10,  0xF0, 0x80, 0xF0, 0x10, 0xF0,
   0xF0, 0x80, 0xF0, 0x90, 0xF0,  0xF0, 0x10, 0x20, 0x40, 0x40]

/-- Glyphs 8 to F of G1. PRESUMED, unsafe (log 4). -/
def fontHigh : List Byte :=
  [0xF0, 0x90, 0xF0, 0x90, 0xF0,  0xF0, 0x90, 0xF0, 0x10, 0xF0,
   0xF0, 0x90, 0xF0, 0x90, 0x90,  0xE0, 0x90, 0xE0, 0x90, 0xE0,
   0xF0, 0x80, 0x80, 0x80, 0xF0,  0xE0, 0x90, 0x90, 0x90, 0xE0,
   0xF0, 0x80, 0xF0, 0x80, 0xF0,  0xF0, 0x80, 0xF0, 0x80, 0x80]

/-- The parameter `FONT` (00_scope.md R4, D12): the bytes written at address 0 by reset. PRESUMED, unsafe (log 4). -/
def fontTable : List Byte := fontLow ++ fontHigh

/-! ## Memory (20_memory.md R30 to R36) -/

/-- What an address that memory does not list reads as: its reset contents with an empty program image (R25). -/
def unlisted (a : Nat) : Byte := fontTable.getD a 0

/-- The canonical form (log 18): addresses strictly rising and below 4096, no entry equal to what its address reads as
unlisted. -/
abbrev Memory.wf (m : Memory) : Prop :=
  m.Pairwise (fun p q => p.1 < q.1) ∧ ∀ p ∈ m, p.1 < Config.memSize ∧ p.2 ≠ unlisted p.1

/-- The byte at an address (R36). -/
def Memory.read : Memory → Nat → Byte
  | [], a => unlisted a
  | (k, b) :: rest, a => if k = a then b else Memory.read rest a

/-- A cell put in front of higher ones, left out where its address reads as that byte anyway. -/
def Memory.cons (a : Nat) (b : Byte) (rest : Memory) : Memory :=
  if b = unlisted a then rest else (a, b) :: rest

/-- Store one byte, keeping the canonical form (R36). -/
def Memory.write : Memory → Nat → Byte → Memory
  | [], a, b => Memory.cons a b []
  | (k, c) :: rest, a, b =>
    if a < k then Memory.cons a b ((k, c) :: rest)
    else if a = k then Memory.cons a b rest
    else (k, c) :: Memory.write rest a b

/-- Store bytes at ascending addresses (R33, R35). -/
def Memory.store : Memory → Nat → List Byte → Memory
  | m, _, [] => m
  | m, a, b :: bs => Memory.store (m.write a b) (a + 1) bs

/-- Memory in which every byte is 0: the font's addresses are listed as 0 (70_reset_and_hazards.md R160 (2)). -/
def Memory.zeroed : Memory := Memory.store [] 0 (List.replicate fontTable.length 0)

/-- The bounds check of R32: an access of `count` bytes from the natural number `base`, never reduced, is out of bounds
when its last byte is; an access of no bytes never is. -/
def outOfBounds (base count : Nat) : Bool := 1 ≤ count && Config.memSize ≤ base + (count - 1)

/-! ## Ending a step (R65 to R67, R135, R139) -/

/-- `raise Fault(kind)` (00_scope.md R7, R66, R139): the step is void and reports the kind to the host. There is no
handler, no saved state and no return from a fault (R141). -/
def raiseFault (kind : Fault) : Result := .fault kind

/-- What the block holds after a step that raised a fault: only the reported outcome differs (R23, R66). -/
def State.recordFault (s : State) (kind : Fault) : State := { s with outcome := .fault kind }

/-- A completed step: `pc` as the instruction leaves it, outcome OK (R67). -/
def State.finishAt (s : State) (target : Word) : State := { s with pc := target, outcome := .ok }

/-- Complete with `pc` at a target (R65, classes jump, return and wait). -/
def completeAt (s : State) (target : Word) : Result := .next (s.finishAt target)

/-- Complete with `pc + 2` (R65, class sequential), mod 2^16 (R15, D6; log 8). -/
def completeNext (s : State) : Result := completeAt s (s.pc + 2)

/-- Complete with `pc + 4` if the condition holds, else `pc + 2` (R65, class skip). -/
def completeSkip (s : State) (condition : Bool) : Result :=
  completeAt s (if condition then s.pc + 4 else s.pc + 2)

/-! ## Registers (10_state.md R10, R12, R16, R18) -/

/-- `V[x]`. -/
def State.getV (s : State) (x : Reg) : Byte := s.v[x]

/-- `V[x] <- b`. -/
def State.setV (s : State) (x : Reg) (b : Byte) : State := { s with v := s.v.set x b }

/-- VF, the flag output (R11). -/
def vf : Reg := 15

/-- The two writes of a flag-writing instruction in their order: `V[x]`, then VF (R12). -/
def State.setResultFlag (s : State) (x : Reg) (result flag : Byte) : State := (s.setV x result).setV vf flag

/-- `I <- w` (R16). -/
def State.setI (s : State) (w : Word) : State := { s with i := w }

/-- `DT <- b` (R18). -/
def State.setDT (s : State) (b : Byte) : State := { s with dt := b }

/-- `ST <- b` (R18). -/
def State.setST (s : State) (b : Byte) : State := { s with st := b }

/-- Replace the contents of memory. -/
def State.setMem (s : State) (m : Memory) : State := { s with mem := m }

/-- One more random byte has been consumed (log 3). -/
def State.countRnd (s : State) : State := { s with rndCount := s.rndCount + 1 }

/-! ## The call stack (10_state.md R17) -/

/-- `stack[sp] <- w; sp <- sp + 1`, or nothing where 16 entries are in use (R78). -/
def State.push (s : State) (w : Word) : Option State :=
  if h : s.sp.val < 16 then
    some { s with stack := s.stack.set s.sp.val w, sp := ⟨s.sp.val + 1, by omega⟩ }
  else none

/-- `sp <- sp - 1`, then `stack[sp]`, or nothing where no entry is in use (R75). The popped entry is not cleared (R17). -/
def State.pop (s : State) : Option (Word × State) :=
  if h : 0 < s.sp.val then
    some (s.stack[s.sp.val - 1], { s with sp := ⟨s.sp.val - 1, by omega⟩ })
  else none

/-! ## The framebuffer (10_state.md R20, 44_display.md R122) -/

/-- A pixel's row and column. -/
abbrev Pixel := Fin 32 × Fin 64

/-- `fb[r][c]`. -/
def Framebuffer.get (fb : Framebuffer) (p : Pixel) : Bool := fb[p.1][p.2]

/-- `fb[r][c] <- fb[r][c] ^ 1`. -/
def Framebuffer.flip (fb : Framebuffer) (p : Pixel) : Framebuffer :=
  fb.set p.1 (fb[p.1].set p.2 (!fb[p.1][p.2]))

/-- Every pixel 0. -/
def Framebuffer.clear : Framebuffer := Vector.replicate 32 (Vector.replicate 64 false)

/-- XOR a sprite's set bits into the framebuffer, one pixel after another; the Bool says whether some pixel went from set
to unset so far (R121 `hit`). -/
def drawPixels : List Pixel → Framebuffer × Bool → Framebuffer × Bool
  | [], acc => acc
  | p :: ps, (fb, hit) => drawPixels ps (Framebuffer.flip fb p, hit || Framebuffer.get fb p)

/-- Pixels changed by an instruction; `redraw` is set whether or not any differs (R19, conflict C3). -/
def State.setScreen (s : State) (fb : Framebuffer) : State := { s with fb := fb, redraw := true }

/-! ## The fetch (40_step_engine.md R62) -/

/-- The two bytes at `pc` and `pc + 1`, high byte first, at any `pc`, even or odd (R34, D4; log 7); out of bounds when
`pc + 1 ≥ 4096`, a sum of natural numbers. -/
def fetch (s : State) : Except Fault Word :=
  if Config.memSize ≤ s.pc.toNat + 1 then .error .oobMemory
  else .ok (s.mem.read s.pc.toNat ++ s.mem.read (s.pc.toNat + 1))

/-- `s` with a word stored at `pc`, high byte first, where the fetch of R62 reads it. Where `pc` is out of bounds there is
no place to fetch from and memory stays as it is (log 24). -/
def State.putWordAtPc (s : State) (w : Word) : State :=
  if Config.memSize ≤ s.pc.toNat + 1 then s
  else s.setMem ((s.mem.write s.pc.toNat (hiByte w)).write (s.pc.toNat + 1) (loByte w))

/-- UNREC (30_encoding.md R52, R137): no effect but `pc + 2`, reported with the word. -/
def execUnrec (w : Word) (s : State) : Result := .next { s with pc := s.pc + 2, outcome := .unrecognized w }

end Sys2Proof.Machine
end

