-- ==== Sys2Proof/Machine/Operands.lean ====
section
/-! DEFINITION. Operand forms: jump targets, effective addresses, register ranges, decimal digits, glyph addresses, sprite
pixels, key indices and the random byte (spec 30_encoding.md R48, 43_index_memory.md R116, 44_display.md R122,
45_keys_timers.md R127, 40_step_engine.md R69). -/

namespace Sys2Proof.Machine

/-- `zext_16(nnn)`: an absolute address (R48, R77, R78, R110). -/
def absolute (nnn : Addr) : Word := nnn.zeroExtend 16

/-- `(zext_16(nnn) + zext_16(V[0])) mod 2^16` (R83): not reduced to 12 bits. -/
def State.indexedTarget (s : State) (nnn : Addr) : Word := absolute nnn + (s.getV 0).zeroExtend 16

/-- `EA = I + k`, a natural number that is never wrapped (R32, R116). -/
def State.effectiveAddress (s : State) (k : Nat) : Nat := s.i.toNat + k

/-- An access of `count` bytes at `I`: where one of them is out of bounds the step faults and none of its effects happens
(R32, R66, D5; log 9), else the instruction's own result. -/
def accessAtI (s : State) (count : Nat) (inBounds : Result) : Result :=
  match outOfBounds (s.effectiveAddress 0) count with
  | true => raiseFault .oobMemory
  | false => inBounds

/-- `(I + zext_16(V[x])) mod 2^16` (R111, D6; log 8). -/
def State.indexPlus (s : State) (x : Reg) : Word := s.i + (s.getV x).zeroExtend 16

/-- `zext_16(V) * 5`, the whole byte, no mask (R112, D20; log 13). -/
def glyphAddress (b : Byte) : Word := BitVec.ofNat 16 (b.toNat * Config.glyphBytes)

/-- The hundreds, tens and units digits of a byte (R113). -/
def bcdDigits (b : Byte) : List Byte :=
  [BitVec.ofNat 8 (b.toNat / 100), BitVec.ofNat 8 (b.toNat / 10 % 10), BitVec.ofNat 8 (b.toNat % 10)]

/-- `V[0]`, ..., `V[x]` in order (R114). -/
def State.regRange (s : State) (x : Reg) : List Byte := s.v.toList.take (x.val + 1)

/-- `V[k] <- mem[I + k]` for k = 0 .. x, the other registers as they are (R115). -/
def State.loadRange (s : State) (x : Reg) : State :=
  { s with v := Vector.ofFn fun k : Fin 16 =>
      if k ≤ x then s.mem.read (s.effectiveAddress k.val) else s.getV k }

/-- Sprite column k of a sprite byte is bit 7 - k (R122, D13; log 12). -/
def spriteBit (b : Byte) (k : Nat) : Bool := b.getLsbD (7 - k)

/-- A framebuffer row, each pixel wrapping on its own (R122). -/
def wrapRow (r : Nat) : Fin 32 := ⟨r % 32, Nat.mod_lt _ (by decide)⟩

/-- A framebuffer column, each pixel wrapping on its own (R122). -/
def wrapColumn (c : Nat) : Fin 64 := ⟨c % 64, Nat.mod_lt _ (by decide)⟩

/-- The pixels under the set bits of sprite row r placed at column `cx`, row `cy` (R121, R122). -/
def spriteRow (b : Byte) (cx cy r : Nat) : List Pixel :=
  ((List.range 8).filter (spriteBit b)).map fun k => (wrapRow (cy + r), wrapColumn (cx + k))

/-- The pixels under the set bits of an n-row sprite at `I`, placed at (`V[x]`, `V[y]`) = (column, row), in the order of
R121's loops (R122, D13; log 12). -/
def State.spritePixels (s : State) (x y : Reg) (n : Nat) : List Pixel :=
  (List.range n).flatMap fun r =>
    spriteRow (s.mem.read (s.effectiveAddress r)) (s.getV x).toNat (s.getV y).toNat r

/-- The key index in `V[x]`, or nothing where it is above 15 (R125, R126, D9; log 11). -/
def State.keyOperand (s : State) (x : Reg) : Option (Fin 16) :=
  if h : (s.getV x).toNat < 16 then some ⟨(s.getV x).toNat, h⟩ else none

/-- `key[k]`. -/
def State.keyDown (s : State) (k : Fin 16) : Bool := s.key[k]

/-- `KEY_PICK` over the keys that are down: the smallest index, nothing where none is down (R127, D10). DESIGN CHOICE of
the spec, unsafe where several keys are down (log 6). -/
def State.keyPick (s : State) : Option (Fin 16) := (List.finRange 16).find? s.keyDown

/-- The step's random byte (R69): the one the host gave with the step, else a free value (log 3). -/
def State.rndByte (s : State) : Byte :=
  match s.rnd with
  | some r => r
  | none => Config.randomByte s.rndCount

end Sys2Proof.Machine
end

