-- ==== Sys2Proof/Machine/ControlFlow.lean ====
section
/-! DEFINITION. Control-flow instructions (spec 41_control_flow.md): RET, SYS, JP, CALL, SEI, SNEI, SER, SNER, JPV0. -/

namespace Sys2Proof.Machine

/-- RET (R75): resume two bytes after the popped address, mod 2^16. -/
def execRet (s : State) : Result :=
  match s.pop with
  | none => raiseFault .stackUnderflow
  | some (w, s') => completeAt s' (w + 2)

/-- SYS (R76): a recognized no-op; the address is ignored. -/
def execSys (_nnn : Addr) (s : State) : Result := completeNext s

/-- JP (R77). -/
def execJp (nnn : Addr) (s : State) : Result := completeAt s (absolute nnn)

/-- CALL (R78): the pushed address is the CALL's own (R14). -/
def execCall (nnn : Addr) (s : State) : Result :=
  match s.push s.pc with
  | none => raiseFault .stackOverflow
  | some s' => completeAt s' (absolute nnn)

/-- SEI (R79). -/
def execSei (x : Reg) (nn : Byte) (s : State) : Result := completeSkip s (s.getV x == nn)

/-- SNEI (R80). -/
def execSnei (x : Reg) (nn : Byte) (s : State) : Result := completeSkip s (s.getV x != nn)

/-- SER (R81). -/
def execSer (x y : Reg) (s : State) : Result := completeSkip s (s.getV x == s.getV y)

/-- SNER (R82). -/
def execSner (x y : Reg) (s : State) : Result := completeSkip s (s.getV x != s.getV y)

/-- JPV0 (R83). -/
def execJpv0 (nnn : Addr) (s : State) : Result := completeAt s (s.indexedTarget nnn)

end Sys2Proof.Machine
end

