-- ==== Sys2Proof/Machine/Flags.lean ====
section
/-! DEFINITION. Arithmetic results and the values VF receives (spec 42_load_alu.md R102, R103; 10_state.md R11, R12).
Operands become natural numbers, the result is computed exactly and then narrowed. -/

namespace Sys2Proof.Machine

/-- VF holds the whole byte 0 or 1 (R11). -/
def flagByte (b : Bool) : Byte := if b then 1 else 0

/-- `(a + b) mod 256` (R102 (a), (b)). -/
def sum8 (a b : Byte) : Byte := BitVec.ofNat 8 (a.toNat + b.toNat)

/-- Carry out: the true sum is 256 or more (R102 (b), conflict C5). -/
def carryOut (a b : Byte) : Bool := 256 ≤ a.toNat + b.toNat

/-- `(a - b) mod 256`, which is `a - b + 256` where b is larger (R102 (c)). -/
def diff8 (a b : Byte) : Byte := BitVec.ofNat 8 (a.toNat + 256 - b.toNat)

/-- Borrow: the minuend is strictly less than the subtrahend (R102 (c)). -/
def borrows (a b : Byte) : Bool := a.toNat < b.toNat

/-- The value of the parameter `VF_SUB_SENSE` for this hardware: the spec's own decision D7 (R103). DESIGN CHOICE of the
spec, unsafe (log 5). -/
def vfSubSense : Config.SubSense := .notBorrow

/-- `subflag(b)` for a sense (R103). -/
def subFlag (sense : Config.SubSense) (borrow : Bool) : Byte :=
  match sense with
  | .notBorrow => flagByte (!borrow)
  | .borrow => flagByte borrow

/-- `V >> 1`, bit 7 becomes 0 (R98). -/
def shiftRight1 (a : Byte) : Byte := BitVec.ofNat 8 (a.toNat / 2)

/-- The bit a right shift shifts out: bit 0 (R98). -/
def bitOutRight (a : Byte) : Bool := a.getLsbD 0

/-- `(V << 1) mod 256`, bit 0 becomes 0 (R100). -/
def shiftLeft1 (a : Byte) : Byte := BitVec.ofNat 8 (2 * a.toNat)

/-- The bit a left shift shifts out: bit 7 (R100). -/
def bitOutLeft (a : Byte) : Bool := a.getLsbD 7

end Sys2Proof.Machine
end

