-- ==== Sys2Proof/Machine/Display.lean ====
section
/-! DEFINITION. Framebuffer instructions (spec 44_display.md): CLS, DRW. -/

namespace Sys2Proof.Machine

/-- CLS (R120). -/
def execCls (s : State) : Result := completeNext (s.setScreen Framebuffer.clear)

/-- What R121's loops leave: the framebuffer and whether a pixel went from set to unset. -/
def State.drawn (s : State) (x y : Reg) (n : Fin 16) : Framebuffer × Bool :=
  drawPixels (s.spritePixels x y n.val) (s.fb, false)

/-- DRW (R121): the coordinates are read before VF is written (R12); VF and `redraw` are written on every execution. -/
def execDrw (x y : Reg) (n : Fin 16) (s : State) : Result :=
  accessAtI s n.val (completeNext ((s.setScreen (s.drawn x y n).1).setV vf (flagByte (s.drawn x y n).2)))

end Sys2Proof.Machine
end

