-- ==== Sys2Proof/Machine/IndexMemory.lean ====
section
/-! DEFINITION. Index-register and memory instructions (spec 43_index_memory.md): LDIX, ADDIX, FONT, BCD, STM, LDM. The
fault check of each comes before its first write (40_step_engine.md R66, D5; log 9). -/

namespace Sys2Proof.Machine

/-- LDIX (R110). -/
def execLdix (nnn : Addr) (s : State) : Result := completeNext (s.setI (absolute nnn))

/-- ADDIX (R111): no flag (D20; log 13). -/
def execAddix (x : Reg) (s : State) : Result := completeNext (s.setI (s.indexPlus x))

/-- FONT (R112). -/
def execFont (x : Reg) (s : State) : Result := completeNext (s.setI (glyphAddress (s.getV x)))

/-- BCD (R113): three digits at `I`, `I + 1`, `I + 2`. -/
def execBcd (x : Reg) (s : State) : Result :=
  accessAtI s 3 (completeNext (s.setMem (s.mem.store (s.effectiveAddress 0) (bcdDigits (s.getV x)))))

/-- STM (R114): `V[0]`..`V[x]` at `I`; `I` is unchanged (R116, D20; log 13). -/
def execStm (x : Reg) (s : State) : Result :=
  accessAtI s (x.val + 1) (completeNext (s.setMem (s.mem.store (s.effectiveAddress 0) (s.regRange x))))

/-- LDM (R115): `V[0]`..`V[x]` from `I`; `I` is unchanged (R116, D20; log 13). -/
def execLdm (x : Reg) (s : State) : Result :=
  accessAtI s (x.val + 1) (completeNext (s.loadRange x))

end Sys2Proof.Machine
end

