-- ==== Sys2Proof/Machine/KeysTimers.lean ====
section
/-! DEFINITION. Key and timer instructions (spec 45_keys_timers.md): SKP, SKNP, WKEY, RDDT, WRDT, WRST. -/

namespace Sys2Proof.Machine

/-- SKP (R125). -/
def execSkp (x : Reg) (s : State) : Result :=
  match s.keyOperand x with
  | none => raiseFault .keyIndex
  | some k => completeSkip s (s.keyDown k)

/-- SKNP (R126). -/
def execSknp (x : Reg) (s : State) : Result :=
  match s.keyOperand x with
  | none => raiseFault .keyIndex
  | some k => completeSkip s (!s.keyDown k)

/-- WKEY (R127): a complete step that changes nothing while no key is down; level-sensitive, and `pc + 2` in the step that
stores the index (D21; log 14). -/
def execWkey (x : Reg) (s : State) : Result :=
  match s.keyPick with
  | none => completeAt s s.pc
  | some k => completeNext (s.setV x (BitVec.ofNat 8 k.val))

/-- RDDT (R128). -/
def execRddt (x : Reg) (s : State) : Result := completeNext (s.setV x s.dt)

/-- WRDT (R129). -/
def execWrdt (x : Reg) (s : State) : Result := completeNext (s.setDT (s.getV x))

/-- WRST (R130): raises no signal (R149). -/
def execWrst (x : Reg) (s : State) : Result := completeNext (s.setST (s.getV x))

end Sys2Proof.Machine
end

