-- ==== Sys2Proof/Machine/LoadAlu.lean ====
section
/-! DEFINITION. Register load and ALU instructions (spec 42_load_alu.md): LDI, ADDI, MOV, OR, AND, XOR, ADD, SUB, SHR,
SUBN, SHL, RND. -/

namespace Sys2Proof.Machine

/-- LDI (R90). -/
def execLdi (x : Reg) (nn : Byte) (s : State) : Result := completeNext (s.setV x nn)

/-- ADDI (R91): wraps, writes no flag. -/
def execAddi (x : Reg) (nn : Byte) (s : State) : Result := completeNext (s.setV x (sum8 (s.getV x) nn))

/-- MOV (R92). -/
def execMov (x y : Reg) (s : State) : Result := completeNext (s.setV x (s.getV y))

/-- OR (R93): VF is left as it was (D20; log 13). -/
def execOr (x y : Reg) (s : State) : Result := completeNext (s.setV x (s.getV x ||| s.getV y))

/-- AND (R94): VF is left as it was (D20; log 13). -/
def execAnd (x y : Reg) (s : State) : Result := completeNext (s.setV x (s.getV x &&& s.getV y))

/-- XOR (R95): VF is left as it was (D20; log 13). -/
def execXor (x y : Reg) (s : State) : Result := completeNext (s.setV x (s.getV x ^^^ s.getV y))

/-- ADD (R96): VF is the carry out. -/
def execAdd (x y : Reg) (s : State) : Result :=
  completeNext (s.setResultFlag x (sum8 (s.getV x) (s.getV y)) (flagByte (carryOut (s.getV x) (s.getV y))))

/-- SUB (R97): `V[x] - V[y]`, VF is `subflag` of the borrow (R103; log 5). -/
def execSub (x y : Reg) (s : State) : Result :=
  completeNext (s.setResultFlag x (diff8 (s.getV x) (s.getV y)) (subFlag vfSubSense (borrows (s.getV x) (s.getV y))))

/-- SHR (R98): `V[x]` by one, `y` ignored (D20; log 13). -/
def execShr (x _y : Reg) (s : State) : Result :=
  completeNext (s.setResultFlag x (shiftRight1 (s.getV x)) (flagByte (bitOutRight (s.getV x))))

/-- SUBN (R99): `V[y] - V[x]`, VF is `subflag` of the borrow (R103; log 5). -/
def execSubn (x y : Reg) (s : State) : Result :=
  completeNext (s.setResultFlag x (diff8 (s.getV y) (s.getV x)) (subFlag vfSubSense (borrows (s.getV y) (s.getV x))))

/-- SHL (R100): `V[x]` by one, `y` ignored (D20; log 13). -/
def execShl (x _y : Reg) (s : State) : Result :=
  completeNext (s.setResultFlag x (shiftLeft1 (s.getV x)) (flagByte (bitOutLeft (s.getV x))))

/-- RND (R101): the step's random byte under a mask (R69; log 3). -/
def execRnd (x : Reg) (nn : Byte) (s : State) : Result := completeNext (s.setV x (s.rndByte &&& nn)).countRnd

end Sys2Proof.Machine
end

