-- ==== Sys2Proof/Machine/Events.lean ====
section
/-! DEFINITION. The host's events other than `step` (spec 60_exceptions.md R148 to R152, 70_reset_and_hazards.md R160 to
R162). -/

namespace Sys2Proof.Machine

/-- One less, never below 0 (R148). -/
def countDown (b : Byte) : Byte := BitVec.ofNat 8 (b.toNat - 1)

/-- `tick()` (R148): `soundZero` is 1 exactly when this tick takes ST from 1 to 0 (R149). -/
def State.tick (s : State) : State :=
  { s with dt := countDown s.dt, st := countDown s.st, soundZero := s.st == 1 }

/-- `setKey(k, down)` (R151). -/
def State.setKey (s : State) (k : Fin 16) (down : Bool) : State := { s with key := s.key.set k down }

/-- `clearRedraw()` (R152). -/
def State.clearRedraw (s : State) : State := { s with redraw := false }

/-- `initialize(rom)` for a font table given as an argument (R160): nothing where the rom does not fit (R161). -/
def initWith (font rom : List Byte) : Option State :=
  if Config.memSize < rom.length + Config.progBase then none
  else some (State.reset.setMem ((Memory.zeroed.store 0 font).store Config.progBase rom))

/-- `initialize(rom)` of this hardware (R160), with its font table (log 4). -/
def initBlock (rom : List Byte) : Option State := initWith fontTable rom

/-- The model's own fields carried over a reset of the machine (log 2, log 3). -/
def State.keepSchedule (new old : State) : State :=
  { new with agenda := old.agenda, rnd := old.rnd, rndCount := old.rndCount }

/-- The answer of a reset taken over by a block that holds a state: a failed one changes nothing (R161, D19; log 16). -/
def State.adopt (old : State) : Option State → State
  | some new => new.keepSchedule old
  | none => old

/-- `initialize(rom)` of a block that already holds a state (R161). -/
def State.reinit (s : State) (rom : List Byte) : State := s.adopt (initBlock rom)

/-- The step begins: its random byte is the one given with the event, or none (R69; log 3). -/
def State.beginStep (s : State) (rnd : Option Byte) : State := { s with rnd := rnd }

/-- The rest of the agenda once its first event is taken (log 2). -/
def State.withAgenda (s : State) (rest : List Event) : State := { s with agenda := rest }

end Sys2Proof.Machine
end

