-- ==== Sys2Proof/Machine/Step.lean ====
section
/-! DEFINITION. One step of the machine (spec 40_step_engine.md R60, R61). -/

namespace Sys2Proof.Machine

/-- The `step` event without its bookkeeping: fetch, decode, dispatch, run (R61, R64, R138). -/
def engineStep (s : State) : Result :=
  match fetch s with
  | .error kind => raiseFault kind
  | .ok w =>
    match decodeWord w with
    | .ok i => exec i s
    | .error _ => execUnrec w s

/-- The next event of the block (R60): the first of the agenda, or, where none is left, a `step` whose random byte the
schedule does not give (log 2, log 3). -/
def step (s : State) : Host.Outcome State Fault Refusal :=
  match s.agenda with
  | [] => engineStep (s.beginStep none)
  | .step rnd :: rest => engineStep ((s.withAgenda rest).beginStep (some rnd))
  | .init rom :: rest => .next ((s.withAgenda rest).reinit rom)
  | .tick :: rest => .next (s.withAgenda rest).tick
  | .setKey k down :: rest => .next ((s.withAgenda rest).setKey k down)
  | .clearRedraw :: rest => .next (s.withAgenda rest).clearRedraw

/-- `s` with a table row's word stored where the next step fetches it, and no host event before that step (log 24). -/
def State.withFetchWord (s : State) (nbits w : Nat) : State :=
  ((s.withAgenda []).beginStep none).putWordAtPc (tableWord nbits w)

end Sys2Proof.Machine
end

