-- ==== Sys2Proof/Machine/Block.lean ====
section
/-! DEFINITION. The block as the host sees it (spec 40_step_engine.md R60, 60_exceptions.md R135, R141, R153,
70_reset_and_hazards.md R161, R162): every event, in any order, with its reply. Here a fault does not end the run: it is
recorded in `outcome`, and the block is stuck until the next successful reset (R66, R141). -/

namespace Sys2Proof.Machine

/-- What the host is told by an event. -/
inductive Reply where
  /-- A step's outcome (R67). -/
  | stepped (outcome : Report)
  /-- A tick's sound signal (R149). -/
  | ticked (soundZero : Bool)
  /-- `setKey`, `clearRedraw` and a successful reset report nothing. -/
  | done
  /-- The capacity error of a reset (R161). -/
  | capacityError
  /-- The block holds no state yet, so the event is not allowed (R162). -/
  | notInitialized
deriving DecidableEq, Repr

/-- The state after a `step(rnd)` event, faulting or not (R61, R66). -/
def State.afterStep (s : State) (rnd : Option Byte) : State :=
  match engineStep (s.beginStep rnd) with
  | .next t => t
  | .fault kind => s.recordFault kind
  | .refused _ => s

/-- What the host is told by a reset that answered `b` (R161). -/
def resetReply (b : Option State) : Reply :=
  match b with
  | some _ => .done
  | none => .capacityError

/-- An event on a block that holds no state (R162, D19; log 16). -/
def firstEvent (e : Event) : Option State × Reply :=
  match e with
  | .init rom => (initBlock rom, resetReply (initBlock rom))
  | .step _ => (none, .notInitialized)
  | .tick => (none, .notInitialized)
  | .setKey _ _ => (none, .notInitialized)
  | .clearRedraw => (none, .notInitialized)

/-- The state after an event on a block that holds a state (R60). -/
def State.afterEvent (s : State) (e : Event) : State :=
  match e with
  | .init rom => s.reinit rom
  | .step rnd => s.afterStep (some rnd)
  | .tick => s.tick
  | .setKey k down => s.setKey k down
  | .clearRedraw => s.clearRedraw

/-- What the host is told by an event on a block that holds a state. -/
def State.replyTo (s : State) (e : Event) : Reply :=
  match e with
  | .init rom => resetReply (initBlock rom)
  | .step rnd => .stepped (s.afterStep (some rnd)).outcome
  | .tick => .ticked s.tick.soundZero
  | .setKey _ _ => .done
  | .clearRedraw => .done

/-- One event of the host on the block, which holds no state before its first successful reset (R60, R162). -/
def blockEvent (b : Option State) (e : Event) : Option State × Reply :=
  match b with
  | none => firstEvent e
  | some s => (some (s.afterEvent e), s.replyTo e)

/-- The state after a sequence of events. -/
def State.afterEvents (s : State) : List Event → State
  | [] => s
  | e :: es => (s.afterEvent e).afterEvents es

/-- The spec's fault codes (R135, D16; log 25). -/
def faultCode : Fault → Nat
  | .oobMemory => 1
  | .stackOverflow => 2
  | .stackUnderflow => 3
  | .keyIndex => 4

/-- The code of a step's outcome: 0 where it is no fault (R135). -/
def reportCode : Report → Nat
  | .ok => 0
  | .unrecognized _ => 0
  | .fault kind => faultCode kind

/-- The code of the capacity error (R135, D16; log 25). -/
def capacityCode : Nat := 5

/-- What the host may read between events (R153): exactly these four. -/
structure HostView where
  fb : Framebuffer
  redraw : Bool
  soundZero : Bool
  outcome : Report
deriving DecidableEq, Repr

/-- The host's read access (R153); it has no side effect. -/
def State.hostView (s : State) : HostView :=
  { fb := s.fb, redraw := s.redraw, soundZero := s.soundZero, outcome := s.outcome }

end Sys2Proof.Machine
end

