-- ==== Sys2Proof/Safety.lean ====
section
/-! DEFINITION. The terms the statements use: what a step leaves unchanged, the invariant of the machine, a run under a
schedule of host events, the end of a program, the fault table, the pixels of a sprite. -/

namespace Sys2Proof.Machine

/-- The parts of the state that a frame speaks of: every field but `pc` and `outcome`, which every step may change. -/
inductive Part where
  | v | i | stack | sp | dt | st | fb | redraw | key | mem | soundZero | agenda | rnd | rndCount
deriving DecidableEq, Repr

/-- A part has the same value in two states; memory is compared through the read of one byte. -/
def Part.same (s t : State) : Part → Prop
  | .v => ∀ r : Reg, t.getV r = s.getV r
  | .i => t.i = s.i
  | .stack => t.stack = s.stack
  | .sp => t.sp = s.sp
  | .dt => t.dt = s.dt
  | .st => t.st = s.st
  | .fb => ∀ p : Pixel, Framebuffer.get t.fb p = Framebuffer.get s.fb p
  | .redraw => t.redraw = s.redraw
  | .key => ∀ k : Fin 16, t.keyDown k = s.keyDown k
  | .mem => ∀ a : Nat, t.mem.read a = s.mem.read a
  | .soundZero => t.soundZero = s.soundZero
  | .agenda => t.agenda = s.agenda
  | .rnd => t.rnd = s.rnd
  | .rndCount => t.rndCount = s.rndCount

/-- Every part but the named ones is unchanged from `s` to `t`. -/
def KeepsAllBut (changed : List Part) (s t : State) : Prop := ∀ p : Part, p ∉ changed → p.same s t

/-- What holds between steps of every run (10_state.md R15, R17; log 18): memory is in its canonical form, `pc` is at most
0x10FE, and every stack entry in use is the address of a fetched CALL, at most 0x0FFE. -/
abbrev State.Inv (s : State) : Prop :=
  s.mem.wf ∧ s.pc.toNat ≤ 0x10FE ∧ ∀ k : Fin 16, k.val < s.sp.val → (s.stack[k]).toNat ≤ 0x0FFE

/-- A run of the machine from reset under a schedule of host events: `n` events later the machine is in state `t`. The
schedule may load a program (`Event.init`), press keys, tick and step; once it is used up every event is a step. -/
def RunsFromReset (schedule : List Event) (n : Nat) (t : State) : Prop :=
  Sys2Proof.core.run n (State.reset.withAgenda schedule) = .next t

/-- `pc` stands at a `JP` whose target is `pc`: the spec's convention for the end of a program (40_step_engine.md R70, D15;
log 26). -/
def State.AtSelfJump (s : State) : Prop :=
  ∃ w nnn, fetch s = .ok w ∧ decodeWord w = .ok (.jp nnn) ∧ absolute nnn = s.pc

/-- An event that is not a reset. -/
def Event.isInit : Event → Bool
  | .init _ => true
  | .step _ => false
  | .tick => false
  | .setKey _ _ => false
  | .clearRedraw => false

/-- The instruction word with this value decodes to `i` (30_encoding.md R50). -/
def DecodesTo (w : Nat) (i : Instr) : Prop := decodeWord (BitVec.ofNat 16 w) = .ok i

/-- Instructions run one after another, each where the one before left the state, without a fetch between them. -/
def execAll : List Instr → State → Result
  | [], s => .next s
  | i :: is, s =>
    match exec i s with
    | .next t => execAll is t
    | .fault kind => .fault kind
    | .refused r => .refused r

/-- The fault table of 60_exceptions.md R136: when an instruction raises which fault, on the state it starts from. -/
def FaultCondition (i : Instr) (s : State) (kind : Fault) : Prop :=
  match i with
  | .ret => kind = .stackUnderflow ∧ s.sp.val = 0
  | .call _ => kind = .stackOverflow ∧ s.sp.val = 16
  | .drw _ _ n => kind = .oobMemory ∧ 1 ≤ n.val ∧ 4096 ≤ s.i.toNat + n.val - 1
  | .bcd _ => kind = .oobMemory ∧ 4096 ≤ s.i.toNat + 2
  | .stm x => kind = .oobMemory ∧ 4096 ≤ s.i.toNat + x.val
  | .ldm x => kind = .oobMemory ∧ 4096 ≤ s.i.toNat + x.val
  | .skp x => kind = .keyIndex ∧ 15 < (s.getV x).toNat
  | .sknp x => kind = .keyIndex ∧ 15 < (s.getV x).toNat
  | .cls | .sys _ | .jp _ | .sei _ _ | .snei _ _ | .ser _ _ | .sner _ _ | .jpv0 _ => False
  | .ldi _ _ | .addi _ _ | .mov _ _ | .or _ _ | .and _ _ | .xor _ _ | .add _ _ | .sub _ _ => False
  | .shr _ _ | .subn _ _ | .shl _ _ | .rnd _ _ | .ldix _ | .addix _ | .font _ => False
  | .wkey _ | .rddt _ | .wrdt _ | .wrst _ => False

/-- The register that an instruction names as the one it writes, for LDM the last of its range (R11: VF is written through
an instruction's own `x` field). -/
def writtenThroughX : Instr → Option Reg
  | .ldi x _ | .addi x _ | .rnd x _ => some x
  | .mov x _ | .or x _ | .and x _ | .xor x _ | .add x _ | .sub x _ => some x
  | .shr x _ | .subn x _ | .shl x _ => some x
  | .wkey x | .rddt x | .ldm x => some x
  | .cls | .ret | .sys _ | .jp _ | .call _ | .sei _ _ | .snei _ _ | .ser _ _ | .sner _ _ | .jpv0 _ => none
  | .ldix _ | .drw _ _ _ | .skp _ | .sknp _ | .wrdt _ | .wrst _ | .addix _ | .font _ | .bcd _ | .stm _ => none

/-- A set bit of an n-row sprite at `I`, placed at column `V[x]`, row `V[y]`, lands on this pixel: sprite row `r`, sprite
column `k` (bit `7 - k`) lands on row `(V[y] + r) mod 32`, column `(V[x] + k) mod 64` (44_display.md R122, D13; log 12). -/
def SpriteCovers (s : State) (x y : Reg) (n : Nat) (p : Pixel) : Prop :=
  ∃ r k, r < n ∧ k < 8 ∧ (s.mem.read (s.i.toNat + r)).getLsbD (7 - k) = true ∧
    p.1.val = ((s.getV y).toNat + r) % 32 ∧ p.2.val = ((s.getV x).toNat + k) % 64

/-- The value the spec gives each piece of state after a reset that succeeds, for a font table and a program image
(10_state.md R25). -/
structure HoldsResetValues (font rom : List Byte) (t : State) : Prop where
  v : ∀ r, t.getV r = 0
  i : t.i = 0
  pc : t.pc = 0x0200
  stack : ∀ k : Fin 16, t.stack[k] = 0
  sp : t.sp.val = 0
  dt : t.dt = 0
  st : t.st = 0
  fb : ∀ p, Framebuffer.get t.fb p = false
  redraw : t.redraw = false
  key : ∀ k, t.keyDown k = false
  outcome : t.outcome = .ok
  soundZero : t.soundZero = false
  memFont : ∀ a, a < font.length → t.mem.read a = font.getD a 0
  memRom : ∀ k, k < rom.length → t.mem.read (0x200 + k) = rom.getD k 0
  memRest : ∀ a, a < 4096 → font.length ≤ a → a < 0x200 ∨ 0x200 + rom.length ≤ a → t.mem.read a = 0

end Sys2Proof.Machine
end

