-- ==== Sys2Proof/Certificates/Slice0/Obligations.lean ====
section
/-! DEFINITION. The statements for the provers. Where one rests on a decision the spec marks as its own, or on a choice of
the model, its docstring says so and names the log entry. Every `pc + 2` below is an addition of 16-bit words; its wrap at
0xFFFF is decision D6 of the spec (log 8) and no run reaches it. -/

open Sys2Proof Sys2Proof.Machine

/-! ## Control flow (41_control_flow.md) -/

/-- R76, R53: every word with `op` = 0 but 0x00E0 and 0x00EE is SYS, and SYS only advances. -/
def Obligations.SysOnlyAdvances : Prop :=
  ∀ (nnn : Addr) (s : State),
    (nnn ≠ 0x0E0 → nnn ≠ 0x0EE → DecodesTo nnn.toNat (.sys nnn)) ∧
    ∃ t, exec (.sys nnn) s = .next t ∧ t.pc = s.pc + 2 ∧ t.outcome = .ok ∧ KeepsAllBut [] s t

/-- R77. -/
def Obligations.JpSetsPc : Prop :=
  ∀ (nnn : Addr) (s : State),
    DecodesTo (0x1000 + nnn.toNat) (.jp nnn) ∧
    ∃ t, exec (.jp nnn) s = .next t ∧ t.pc.toNat = nnn.toNat ∧ t.outcome = .ok ∧ KeepsAllBut [] s t

/-- R78: with fewer than 16 entries in use the CALL's own address is pushed; with 16 nothing changes (the outcome, which
is reported, apart). -/
def Obligations.CallPushesItsOwnAddress : Prop :=
  ∀ (nnn : Addr) (s : State),
    DecodesTo (0x2000 + nnn.toNat) (.call nnn) ∧
    (∀ k : Fin 16, s.sp.val = k.val →
      ∃ t, exec (.call nnn) s = .next t ∧ t.stack[k] = s.pc ∧ (∀ j : Fin 16, j ≠ k → t.stack[j] = s.stack[j]) ∧
        t.sp.val = s.sp.val + 1 ∧ t.pc.toNat = nnn.toNat ∧ t.outcome = .ok ∧ KeepsAllBut [.stack, .sp] s t) ∧
    (s.sp.val = 16 → exec (.call nnn) s = .fault .stackOverflow) ∧
    (∀ w, s.sp.val = 16 → fetch s = .ok w → decodeWord w = .ok (.call nnn) →
      s.afterStep s.rnd = { s with outcome := .fault .stackOverflow })

/-- R75: the popped entry stays in the stack; with an empty stack nothing changes (the outcome, which is reported, apart). -/
def Obligations.RetResumesAfterTheCall : Prop :=
  ∀ s : State,
    DecodesTo 0x00EE .ret ∧
    (∀ k : Fin 16, s.sp.val = k.val + 1 →
      ∃ t, exec .ret s = .next t ∧ t.sp.val = k.val ∧ t.pc.toNat = ((s.stack[k]).toNat + 2) % 65536 ∧
        t.outcome = .ok ∧ KeepsAllBut [.sp] s t) ∧
    (s.sp.val = 0 → exec .ret s = .fault .stackUnderflow) ∧
    (∀ w, s.sp.val = 0 → fetch s = .ok w → decodeWord w = .ok .ret →
      s.afterStep s.rnd = { s with outcome := .fault .stackUnderflow })

/-- R79, R80. -/
def Obligations.SkipsOnImmediate : Prop :=
  ∀ (x : Reg) (nn : Byte) (s : State),
    DecodesTo (0x3000 + 256 * x.val + nn.toNat) (.sei x nn) ∧
    DecodesTo (0x4000 + 256 * x.val + nn.toNat) (.snei x nn) ∧
    (∃ t, exec (.sei x nn) s = .next t ∧ t.pc = (if s.getV x = nn then s.pc + 4 else s.pc + 2) ∧
      t.outcome = .ok ∧ KeepsAllBut [] s t) ∧
    (∃ t, exec (.snei x nn) s = .next t ∧ t.pc = (if s.getV x ≠ nn then s.pc + 4 else s.pc + 2) ∧
      t.outcome = .ok ∧ KeepsAllBut [] s t)

/-- R81, R82: with a low nibble other than 0 the word is no instruction. -/
def Obligations.SkipsOnRegisters : Prop :=
  ∀ (x y : Reg) (s : State),
    DecodesTo (0x5000 + 256 * x.val + 16 * y.val) (.ser x y) ∧
    DecodesTo (0x9000 + 256 * x.val + 16 * y.val) (.sner x y) ∧
    (∀ (n : Nat) (i : Instr), 1 ≤ n → n < 16 →
      ¬ DecodesTo (0x5000 + 256 * x.val + 16 * y.val + n) i ∧ ¬ DecodesTo (0x9000 + 256 * x.val + 16 * y.val + n) i) ∧
    (∃ t, exec (.ser x y) s = .next t ∧ t.pc = (if s.getV x = s.getV y then s.pc + 4 else s.pc + 2) ∧
      t.outcome = .ok ∧ KeepsAllBut [] s t) ∧
    (∃ t, exec (.sner x y) s = .next t ∧ t.pc = (if s.getV x ≠ s.getV y then s.pc + 4 else s.pc + 2) ∧
      t.outcome = .ok ∧ KeepsAllBut [] s t)

/-- R83: the sum is at most 0x10FE, so it is kept as it is. -/
def Obligations.Jpv0AddsV0 : Prop :=
  ∀ (nnn : Addr) (s : State),
    DecodesTo (0xB000 + nnn.toNat) (.jpv0 nnn) ∧
    ∃ t, exec (.jpv0 nnn) s = .next t ∧ t.pc.toNat = nnn.toNat + (s.getV 0).toNat ∧ t.outcome = .ok ∧
      KeepsAllBut [] s t

/-! ## Register load and ALU (42_load_alu.md) -/

/-- R90. -/
def Obligations.LdiLoadsTheImmediate : Prop :=
  ∀ (x : Reg) (nn : Byte) (s : State),
    DecodesTo (0x6000 + 256 * x.val + nn.toNat) (.ldi x nn) ∧
    ∃ t, exec (.ldi x nn) s = .next t ∧ t.getV x = nn ∧ (∀ r, r ≠ x → t.getV r = s.getV r) ∧
      t.pc = s.pc + 2 ∧ t.outcome = .ok ∧ KeepsAllBut [.v] s t

/-- R91: no flag is written, so VF changes only as the destination. -/
def Obligations.AddiWrapsWithoutFlag : Prop :=
  ∀ (x : Reg) (nn : Byte) (s : State),
    DecodesTo (0x7000 + 256 * x.val + nn.toNat) (.addi x nn) ∧
    ∃ t, exec (.addi x nn) s = .next t ∧ (t.getV x).toNat = ((s.getV x).toNat + nn.toNat) % 256 ∧
      (∀ r, r ≠ x → t.getV r = s.getV r) ∧ t.pc = s.pc + 2 ∧ t.outcome = .ok ∧ KeepsAllBut [.v] s t

/-- R92. -/
def Obligations.MovCopies : Prop :=
  ∀ (x y : Reg) (s : State),
    DecodesTo (0x8000 + 256 * x.val + 16 * y.val) (.mov x y) ∧
    ∃ t, exec (.mov x y) s = .next t ∧ t.getV x = s.getV y ∧ (∀ r, r ≠ x → t.getV r = s.getV r) ∧
      t.pc = s.pc + 2 ∧ t.outcome = .ok ∧ KeepsAllBut [.v] s t

/-- OR, AND, XOR bit by bit; that VF is left alone is the spec's decision D20 (log 13). -/
def Obligations.LogicActsBitwise : Prop :=
  ∀ (x y : Reg) (s : State),
    DecodesTo (0x8001 + 256 * x.val + 16 * y.val) (.or x y) ∧
    DecodesTo (0x8002 + 256 * x.val + 16 * y.val) (.and x y) ∧
    DecodesTo (0x8003 + 256 * x.val + 16 * y.val) (.xor x y) ∧
    (∃ t, exec (.or x y) s = .next t ∧
      (∀ b, (t.getV x).getLsbD b = ((s.getV x).getLsbD b || (s.getV y).getLsbD b)) ∧
      (∀ r, r ≠ x → t.getV r = s.getV r) ∧ t.pc = s.pc + 2 ∧ t.outcome = .ok ∧ KeepsAllBut [.v] s t) ∧
    (∃ t, exec (.and x y) s = .next t ∧
      (∀ b, (t.getV x).getLsbD b = ((s.getV x).getLsbD b && (s.getV y).getLsbD b)) ∧
      (∀ r, r ≠ x → t.getV r = s.getV r) ∧ t.pc = s.pc + 2 ∧ t.outcome = .ok ∧ KeepsAllBut [.v] s t) ∧
    (∃ t, exec (.xor x y) s = .next t ∧
      (∀ b, (t.getV x).getLsbD b = ((s.getV x).getLsbD b ^^ (s.getV y).getLsbD b)) ∧
      (∀ r, r ≠ x → t.getV r = s.getV r) ∧ t.pc = s.pc + 2 ∧ t.outcome = .ok ∧ KeepsAllBut [.v] s t)

/-- R96: VF is written after `V[x]`, so with `x` = 15 it ends as the carry. -/
def Obligations.AddSetsCarry : Prop :=
  ∀ (x y : Reg) (s : State),
    DecodesTo (0x8004 + 256 * x.val + 16 * y.val) (.add x y) ∧
    ∃ t, exec (.add x y) s = .next t ∧
      (t.getV 15).toNat = (if 256 ≤ (s.getV x).toNat + (s.getV y).toNat then 1 else 0) ∧
      (x ≠ 15 → (t.getV x).toNat = ((s.getV x).toNat + (s.getV y).toNat) % 256) ∧
      (∀ r, r ≠ x → r ≠ 15 → t.getV r = s.getV r) ∧ t.pc = s.pc + 2 ∧ t.outcome = .ok ∧ KeepsAllBut [.v] s t

/-- SUB with VF as `subflag` of the borrow. Which value that is on a borrow is the spec's decision D7 (log 5). -/
def Obligations.SubWrapsAndReportsBorrow : Prop :=
  ∀ (x y : Reg) (s : State),
    DecodesTo (0x8005 + 256 * x.val + 16 * y.val) (.sub x y) ∧
    ∃ t, exec (.sub x y) s = .next t ∧
      t.getV 15 = subFlag vfSubSense (decide ((s.getV x).toNat < (s.getV y).toNat)) ∧
      (x ≠ 15 → (t.getV x).toNat = ((s.getV x).toNat + 256 - (s.getV y).toNat) % 256) ∧
      (∀ r, r ≠ x → r ≠ 15 → t.getV r = s.getV r) ∧ t.pc = s.pc + 2 ∧ t.outcome = .ok ∧ KeepsAllBut [.v] s t

/-- SUBN: as SUB with the operands exchanged, the destination still `V[x]`. Decision D7 (log 5) as for SUB. -/
def Obligations.SubnWrapsAndReportsBorrow : Prop :=
  ∀ (x y : Reg) (s : State),
    DecodesTo (0x8007 + 256 * x.val + 16 * y.val) (.subn x y) ∧
    ∃ t, exec (.subn x y) s = .next t ∧
      t.getV 15 = subFlag vfSubSense (decide ((s.getV y).toNat < (s.getV x).toNat)) ∧
      (x ≠ 15 → (t.getV x).toNat = ((s.getV y).toNat + 256 - (s.getV x).toNat) % 256) ∧
      (∀ r, r ≠ x → r ≠ 15 → t.getV r = s.getV r) ∧ t.pc = s.pc + 2 ∧ t.outcome = .ok ∧ KeepsAllBut [.v] s t

/-- The two senses of the borrow flag and the one this hardware has: the spec's decision D7 (log 5). -/
def Obligations.BorrowFlagIsNotBorrow : Prop :=
  subFlag .notBorrow true = 0 ∧ subFlag .notBorrow false = 1 ∧ subFlag .borrow true = 1 ∧ subFlag .borrow false = 0 ∧
    vfSubSense = .notBorrow

/-- SHR shifts `V[x]`; that `y` is ignored is the spec's decision D20 (log 13). -/
def Obligations.ShrShiftsByOne : Prop :=
  ∀ (x y : Reg) (s : State),
    DecodesTo (0x8006 + 256 * x.val + 16 * y.val) (.shr x y) ∧
    ∃ t, exec (.shr x y) s = .next t ∧ (t.getV 15).toNat = (s.getV x).toNat % 2 ∧
      (x ≠ 15 → (t.getV x).toNat = (s.getV x).toNat / 2) ∧
      (∀ r, r ≠ x → r ≠ 15 → t.getV r = s.getV r) ∧ t.pc = s.pc + 2 ∧ t.outcome = .ok ∧ KeepsAllBut [.v] s t

/-- SHL shifts `V[x]`; that `y` is ignored is the spec's decision D20 (log 13). -/
def Obligations.ShlShiftsByOne : Prop :=
  ∀ (x y : Reg) (s : State),
    DecodesTo (0x800E + 256 * x.val + 16 * y.val) (.shl x y) ∧
    ∃ t, exec (.shl x y) s = .next t ∧ (t.getV 15).toNat = (s.getV x).toNat / 128 ∧
      (x ≠ 15 → (t.getV x).toNat = 2 * (s.getV x).toNat % 256) ∧
      (∀ r, r ≠ x → r ≠ 15 → t.getV r = s.getV r) ∧ t.pc = s.pc + 2 ∧ t.outcome = .ok ∧ KeepsAllBut [.v] s t

/-- R101: whatever byte `rnd` the step is given. A step without a given byte completes too, with a free value (log 3). -/
def Obligations.RndMasksTheGivenByte : Prop :=
  ∀ (x : Reg) (nn : Byte) (s : State),
    DecodesTo (0xC000 + 256 * x.val + nn.toNat) (.rnd x nn) ∧
    ∃ t, exec (.rnd x nn) s = .next t ∧ (∀ rnd, s.rnd = some rnd → t.getV x = rnd &&& nn) ∧
      (∀ b, nn.getLsbD b = false → (t.getV x).getLsbD b = false) ∧
      (∀ r, r ≠ x → t.getV r = s.getV r) ∧ t.pc = s.pc + 2 ∧ t.outcome = .ok ∧ KeepsAllBut [.v, .rndCount] s t

/-! ## Index register and memory (43_index_memory.md) -/

/-- R110. -/
def Obligations.LdixLoadsIndex : Prop :=
  ∀ (nnn : Addr) (s : State),
    DecodesTo (0xA000 + nnn.toNat) (.ldix nnn) ∧
    ∃ t, exec (.ldix nnn) s = .next t ∧ t.i.toNat = nnn.toNat ∧ t.pc = s.pc + 2 ∧ t.outcome = .ok ∧
      KeepsAllBut [.i] s t

/-- ADDIX; the wrap at 16 bits is the spec's decision D6 (log 8), that no flag is written D20 (log 13). -/
def Obligations.AddixAddsToIndex : Prop :=
  ∀ (x : Reg) (s : State),
    DecodesTo (0xF01E + 256 * x.val) (.addix x) ∧
    ∃ t, exec (.addix x) s = .next t ∧ t.i.toNat = (s.i.toNat + (s.getV x).toNat) % 65536 ∧ t.pc = s.pc + 2 ∧
      t.outcome = .ok ∧ KeepsAllBut [.i] s t

/-- FONT; that the whole byte is multiplied, not its low four bits, is the spec's decision D20 (log 13). -/
def Obligations.FontMultipliesByFive : Prop :=
  ∀ (x : Reg) (s : State),
    DecodesTo (0xF029 + 256 * x.val) (.font x) ∧
    ∃ t, exec (.font x) s = .next t ∧ t.i.toNat = 5 * (s.getV x).toNat ∧ t.pc = s.pc + 2 ∧ t.outcome = .ok ∧
      KeepsAllBut [.i] s t

/-- BCD: the digits at `I`, `I + 1`, `I + 2` and every other byte as before. That nothing is stored where it faults is the
spec's decision D5 (log 9), that `I` is unchanged D20 (log 13). -/
def Obligations.BcdStoresThreeDigits : Prop :=
  ∀ (x : Reg) (s : State), s.mem.wf →
    DecodesTo (0xF033 + 256 * x.val) (.bcd x) ∧ (∀ k, s.effectiveAddress k = s.i.toNat + k) ∧
    (s.effectiveAddress 2 < 4096 →
      ∃ t, exec (.bcd x) s = .next t ∧
        (t.mem.read (s.effectiveAddress 0)).toNat = (s.getV x).toNat / 100 ∧
        (t.mem.read (s.effectiveAddress 1)).toNat = (s.getV x).toNat / 10 % 10 ∧
        (t.mem.read (s.effectiveAddress 2)).toNat = (s.getV x).toNat % 10 ∧
        (∀ a, (∀ k, k < 3 → a ≠ s.effectiveAddress k) → t.mem.read a = s.mem.read a) ∧
        t.pc = s.pc + 2 ∧ t.outcome = .ok ∧ KeepsAllBut [.mem] s t) ∧
    (4096 ≤ s.effectiveAddress 2 → exec (.bcd x) s = .fault .oobMemory)

/-- STM: `V[k]` at `I + k` for k up to x and every other byte as before. Decisions D5 (log 9) and D20 (log 13) as for BCD. -/
def Obligations.StmStoresTheRange : Prop :=
  ∀ (x : Reg) (s : State), s.mem.wf →
    DecodesTo (0xF055 + 256 * x.val) (.stm x) ∧ (∀ k, s.effectiveAddress k = s.i.toNat + k) ∧
    (s.effectiveAddress x.val < 4096 →
      ∃ t, exec (.stm x) s = .next t ∧
        (∀ k : Reg, k ≤ x → t.mem.read (s.effectiveAddress k.val) = s.getV k) ∧
        (∀ a, (∀ k : Reg, k ≤ x → a ≠ s.effectiveAddress k.val) → t.mem.read a = s.mem.read a) ∧
        t.pc = s.pc + 2 ∧ t.outcome = .ok ∧ KeepsAllBut [.mem] s t) ∧
    (4096 ≤ s.effectiveAddress x.val → exec (.stm x) s = .fault .oobMemory)

/-- LDM: `V[k]` from `I + k` for k up to x, the registers above x and `I` as before (D20, log 13; D5, log 9). -/
def Obligations.LdmLoadsTheRange : Prop :=
  ∀ (x : Reg) (s : State),
    DecodesTo (0xF065 + 256 * x.val) (.ldm x) ∧ (∀ k, s.effectiveAddress k = s.i.toNat + k) ∧
    (s.effectiveAddress x.val < 4096 →
      ∃ t, exec (.ldm x) s = .next t ∧
        (∀ k : Reg, k ≤ x → t.getV k = s.mem.read (s.effectiveAddress k.val)) ∧
        (∀ k : Reg, x < k → t.getV k = s.getV k) ∧
        t.pc = s.pc + 2 ∧ t.outcome = .ok ∧ KeepsAllBut [.v] s t) ∧
    (4096 ≤ s.effectiveAddress x.val → exec (.ldm x) s = .fault .oobMemory)

/-- STM and LDM undo each other: the registers loaded from where a range was stored are the stored ones, whatever happened
to the registers in between. `I` is the same for both because neither changes it (D20, log 13). -/
def Obligations.LdmReadsBackWhatStmStored : Prop :=
  ∀ (x : Reg) (s t u : State), s.mem.wf → exec (.stm x) s = .next t → u.mem = t.mem → u.i = t.i →
    ∃ w, exec (.ldm x) u = .next w ∧ ∀ k : Reg, k ≤ x → w.getV k = s.getV k

/-- A store is seen by the very next fetch, the lower-numbered register as the high byte: an STM to the two bytes that
follow it. That this holds at an odd `pc` too is the spec's decision D4 (log 7). -/
def Obligations.StoreIsSeenByTheNextFetch : Prop :=
  ∀ (x : Reg) (s t : State), s.mem.wf → 1 ≤ x.val → s.i = s.pc + 2 → s.pc.toNat < 4093 → exec (.stm x) s = .next t →
    ∃ w, fetch t = .ok w ∧ w.toNat = (s.getV 0).toNat * 256 + (s.getV 1).toNat

/-! ## Framebuffer (44_display.md) -/

/-- R120: `redraw` is set even when every pixel was already 0. -/
def Obligations.ClsClearsEveryPixel : Prop :=
  ∀ s : State,
    DecodesTo 0x00E0 .cls ∧
    ∃ t, exec .cls s = .next t ∧ (∀ p, Framebuffer.get t.fb p = false) ∧ t.redraw = true ∧ t.pc = s.pc + 2 ∧
      t.outcome = .ok ∧ KeepsAllBut [.fb, .redraw] s t

/-- DRW pixel by pixel: exactly the pixels under a set sprite bit are flipped; VF says whether one of them was set. The
geometry is the spec's decision D13 (log 12); that nothing changes where it faults D5 (log 9); that `I` is unchanged D20
(log 13). -/
def Obligations.DrwFlipsThePixelsUnderTheSprite : Prop :=
  ∀ (x y : Reg) (n : Fin 16) (s : State),
    DecodesTo (0xD000 + 256 * x.val + 16 * y.val + n.val) (.drw x y n) ∧
    (n.val = 0 ∨ s.i.toNat + n.val ≤ 4096 →
      ∃ t, exec (.drw x y n) s = .next t ∧
        (∀ p, SpriteCovers s x y n.val p → Framebuffer.get t.fb p = !Framebuffer.get s.fb p) ∧
        (∀ p, ¬ SpriteCovers s x y n.val p → Framebuffer.get t.fb p = Framebuffer.get s.fb p) ∧
        ((∃ p, SpriteCovers s x y n.val p ∧ Framebuffer.get s.fb p = true) → t.getV 15 = 1) ∧
        ((∀ p, SpriteCovers s x y n.val p → Framebuffer.get s.fb p = false) → t.getV 15 = 0) ∧
        (∀ r, r ≠ 15 → t.getV r = s.getV r) ∧ t.redraw = true ∧ t.pc = s.pc + 2 ∧ t.outcome = .ok ∧
        KeepsAllBut [.v, .fb, .redraw] s t) ∧
    (1 ≤ n.val → 4096 ≤ s.i.toNat + n.val - 1 → exec (.drw x y n) s = .fault .oobMemory)

/-- Drawing the same sprite twice at the same place restores every pixel, and the second draw's VF is 1 exactly when a
sprite pixel was set before it. The hypotheses say that the coordinates are the same for the second draw, which fails only
where VF itself is a coordinate and the first draw changed it. The geometry is the spec's decision D13 (log 12); that the
second draw reads the same sprite because the first leaves `I` alone D20 (log 13). -/
def Obligations.DrawingTwiceRestoresTheScreen : Prop :=
  ∀ (x y : Reg) (n : Fin 16) (s t : State), exec (.drw x y n) s = .next t → t.getV x = s.getV x →
    t.getV y = s.getV y →
    ∃ u, exec (.drw x y n) t = .next u ∧ u.fb = s.fb ∧
      ((∃ p, SpriteCovers s x y n.val p ∧ Framebuffer.get t.fb p = true) → u.getV 15 = 1) ∧
      ((∀ p, SpriteCovers s x y n.val p → Framebuffer.get t.fb p = false) → u.getV 15 = 0)

/-! ## Keys and timers (45_keys_timers.md) -/

/-- SKP and SKNP for every index, and their fault above 15, which is the spec's decision D9 (log 11). -/
def Obligations.KeySkipsTestOneKey : Prop :=
  ∀ (x : Reg) (s : State),
    DecodesTo (0xE09E + 256 * x.val) (.skp x) ∧ DecodesTo (0xE0A1 + 256 * x.val) (.sknp x) ∧
    (∀ k : Fin 16, (s.getV x).toNat = k.val →
      (∃ t, exec (.skp x) s = .next t ∧ t.pc = (if s.keyDown k = true then s.pc + 4 else s.pc + 2) ∧
        t.outcome = .ok ∧ KeepsAllBut [] s t) ∧
      (∃ t, exec (.sknp x) s = .next t ∧ t.pc = (if s.keyDown k = false then s.pc + 4 else s.pc + 2) ∧
        t.outcome = .ok ∧ KeepsAllBut [] s t)) ∧
    (15 < (s.getV x).toNat → exec (.skp x) s = .fault .keyIndex ∧ exec (.sknp x) s = .fault .keyIndex)

/-- WKEY: a complete step that changes nothing while every key is up, else the lowest key down and `pc + 2`. The lowest
index is the spec's decision D10 (log 6), the level and the same-step advance D21 (log 14). -/
def Obligations.WkeyWaitsForAKey : Prop :=
  ∀ (x : Reg) (s : State),
    DecodesTo (0xF00A + 256 * x.val) (.wkey x) ∧
    ((∀ k, s.keyDown k = false) →
      ∃ t, exec (.wkey x) s = .next t ∧ t.pc = s.pc ∧ t.outcome = .ok ∧ KeepsAllBut [] s t) ∧
    (∀ k : Fin 16, s.keyDown k = true → (∀ j, j < k → s.keyDown j = false) →
      ∃ t, exec (.wkey x) s = .next t ∧ (t.getV x).toNat = k.val ∧ (∀ r, r ≠ x → t.getV r = s.getV r) ∧
        t.pc = s.pc + 2 ∧ t.outcome = .ok ∧ KeepsAllBut [.v] s t)

/-- R128, R129, R130. -/
def Obligations.TimerTransfersMoveOneByte : Prop :=
  ∀ (x : Reg) (s : State),
    DecodesTo (0xF007 + 256 * x.val) (.rddt x) ∧ DecodesTo (0xF015 + 256 * x.val) (.wrdt x) ∧
    DecodesTo (0xF018 + 256 * x.val) (.wrst x) ∧
    (∃ t, exec (.rddt x) s = .next t ∧ t.getV x = s.dt ∧ (∀ r, r ≠ x → t.getV r = s.getV r) ∧
      t.pc = s.pc + 2 ∧ t.outcome = .ok ∧ KeepsAllBut [.v] s t) ∧
    (∃ t, exec (.wrdt x) s = .next t ∧ t.dt = s.getV x ∧ t.pc = s.pc + 2 ∧ t.outcome = .ok ∧
      KeepsAllBut [.dt] s t) ∧
    (∃ t, exec (.wrst x) s = .next t ∧ t.st = s.getV x ∧ t.pc = s.pc + 2 ∧ t.outcome = .ok ∧
      KeepsAllBut [.st] s t)

/-! ## Encoding (30_encoding.md) -/

/-- R46: the fields of every word, as numbers. -/
def Obligations.FieldsAreTheNibbles : Prop :=
  ∀ w : Word,
    (fields w).op.toNat = w.toNat / 4096 ∧ (fields w).x.toNat = w.toNat / 256 % 16 ∧
    (fields w).y.toNat = w.toNat / 16 % 16 ∧ (fields w).n.toNat = w.toNat % 16 ∧
    (fields w).nn.toNat = w.toNat % 256 ∧ (fields w).nnn.toNat = w.toNat % 4096

/-- R49, R50: for every word the decoder answers the first matching row of the opcode map, and none where no row matches;
two rows match one word only where one of them is SYS and the other CLS or RET. The last is an inference of the spec's own,
R49's "No other two rows overlap [derived: from the patterns of rule R50; every other pair differs in `op` or in a fixed
selector]". -/
def Obligations.DecoderFollowsTheOpcodeMap : Prop :=
  (∀ w : Word, (match decodeWord w with | .ok i => some i.mnemonic | .error _ => none) =
    (firstRow w).map OpcodeRow.mnemonic) ∧
  (∀ r ∈ opcodeRows, ∀ q ∈ opcodeRows, ∀ w : Word, w &&& r.mask = r.pattern → w &&& q.mask = q.pattern →
    r = q ∨ (r.mnemonic = "SYS" ∧ q.mnemonic ∈ ["CLS", "RET"]) ∨ (q.mnemonic = "SYS" ∧ r.mnemonic ∈ ["CLS", "RET"]))

/-- The unrecognized words, class by class. -/
def Obligations.UnrecognizedWordsAreTheseClasses : Prop :=
  ∀ w : Word, decodeWord w = .error (.unrecognized w) ↔
    (w.toNat / 4096 = 0x5 ∧ w.toNat % 16 ≠ 0) ∨
    (w.toNat / 4096 = 0x8 ∧ w.toNat % 16 ∈ [0x8, 0x9, 0xA, 0xB, 0xC, 0xD, 0xF]) ∨
    (w.toNat / 4096 = 0x9 ∧ w.toNat % 16 ≠ 0) ∨
    (w.toNat / 4096 = 0xE ∧ w.toNat % 256 ∉ [0x9E, 0xA1]) ∨
    (w.toNat / 4096 = 0xF ∧ w.toNat % 256 ∉ [0x07, 0x0A, 0x15, 0x18, 0x1E, 0x29, 0x33, 0x55, 0x65])

/-- Every well-formed instruction is decoded back from its bytes, with every operand, and the bytes after it remain. -/
def Obligations.DecodeOfEncode : Prop :=
  ∀ (i : Instr) (rest : List Byte), i.wellFormed = true → decode (encodeBytes i ++ rest) = .ok (i, rest)

/-- Each recognized word has one meaning: the instruction read from it is well formed and encodes back to it. -/
def Obligations.EncodeOfDecode : Prop :=
  ∀ (w : Word) (i : Instr), decodeWord w = .ok i → i.wellFormed = true ∧ encodeWord i = w

/-- Words written out from R50's patterns; 0x00E0 and 0x1234 are the document's own examples. -/
def Obligations.SampleWordsDecode : Prop :=
  DecodesTo 0x00E0 .cls ∧ DecodesTo 0x1234 (.jp 0x234) ∧ DecodesTo 0x01E0 (.sys 0x1E0) ∧ DecodesTo 0x71FF (.addi 1 0xFF) ∧
    DecodesTo 0x812E (.shl 1 2) ∧ DecodesTo 0xD012 (.drw 0 1 2) ∧ DecodesTo 0xE4A1 (.sknp 4) ∧ DecodesTo 0xF265 (.ldm 2)

/-! ## The step engine (40_step_engine.md) -/

/-- A step runs the instruction that the bytes at `pc` decode to. The agenda that says which event comes next, and the byte
that comes with it, are the model's own fields (log 2, log 3). -/
def Obligations.StepRunsTheDecodedInstruction : Prop :=
  ∀ (s : State) (w : Word) (i : Instr), fetch s = .ok w → decodeWord w = .ok i →
    (s.agenda = [] → step s = exec i (s.beginStep none)) ∧
    (∀ rnd rest, s.agenda = .step rnd :: rest → step s = exec i ((s.withAgenda rest).beginStep (some rnd)))

/-- The fetch of R62, at every `pc`. That an odd `pc` fetches like an even one is the spec's decision D4 (log 7). -/
def Obligations.FetchReadsTwoBytesBigEndian : Prop :=
  ∀ s : State,
    (4096 ≤ s.pc.toNat + 1 → fetch s = .error .oobMemory ∧ engineStep s = .fault .oobMemory) ∧
    (s.pc.toNat + 1 < 4096 →
      ∃ w, fetch s = .ok w ∧ w.toNat = (s.mem.read s.pc.toNat).toNat * 256 + (s.mem.read (s.pc.toNat + 1)).toNat)

/-- R52: an unrecognized word changes nothing but `pc`, and is reported. -/
def Obligations.UnrecognizedWordOnlyAdvances : Prop :=
  ∀ (s : State) (w : Word), fetch s = .ok w → decodeWord w = .error (.unrecognized w) →
    ∃ t, engineStep s = .next t ∧ t.pc = s.pc + 2 ∧ t.outcome = .unrecognized w ∧ KeepsAllBut [] s t

/-- How `pc` moves, class by class. -/
def Obligations.PcMovesByClass : Prop :=
  ∀ (i : Instr) (s t : State), exec i s = .next t →
    (i.mnemonic ∈ ["CLS", "SYS", "LDI", "ADDI", "MOV", "OR", "AND", "XOR", "ADD", "SUB", "SHR", "SUBN", "SHL", "LDIX",
      "RND", "DRW", "RDDT", "WRDT", "WRST", "ADDIX", "FONT", "BCD", "STM", "LDM"] → t.pc = s.pc + 2) ∧
    (i.mnemonic ∈ ["SEI", "SNEI", "SER", "SNER", "SKP", "SKNP"] → t.pc = s.pc + 4 ∨ t.pc = s.pc + 2) ∧
    (∀ nnn, i = .jp nnn ∨ i = .call nnn → t.pc.toNat = nnn.toNat) ∧
    (∀ nnn, i = .jpv0 nnn → t.pc.toNat = nnn.toNat + (s.getV 0).toNat) ∧
    (i = .ret → ∀ k : Fin 16, s.sp.val = k.val + 1 → t.pc = s.stack[k] + 2) ∧
    (∀ x, i = .wkey x → ((∀ k, s.keyDown k = false) → t.pc = s.pc) ∧
      ((∃ k, s.keyDown k = true) → t.pc = s.pc + 2))

/-- What a step that completes reports. -/
def Obligations.CompletedStepReportsItsWord : Prop :=
  ∀ s t : State, engineStep s = .next t →
    ∃ w, fetch s = .ok w ∧ (∀ i, decodeWord w = .ok i → t.outcome = .ok) ∧
      (decodeWord w = .error (.unrecognized w) → t.outcome = .unrecognized w)

/-- A `JP` to its own address is a fixed point of the step. That it ends a program is the spec's convention D15 (log 26). -/
def Obligations.SelfJumpIsAFixedPoint : Prop :=
  ∀ s : State, s.AtSelfJump →
    ∃ t, engineStep s = .next t ∧ t.pc = s.pc ∧ t.outcome = .ok ∧ KeepsAllBut [] s t ∧ t.AtSelfJump

/-! ## Faults (60_exceptions.md) -/

/-- Each instruction raises exactly the faults of the table, exactly there, and refuses nothing: in every other state it
completes. The key-index fault is the spec's decision D9 (log 11). -/
def Obligations.FaultTableIsExact : Prop :=
  ∀ (i : Instr) (s : State),
    (∀ kind, exec i s = .fault kind ↔ FaultCondition i s kind) ∧
    ((∀ kind, ¬ FaultCondition i s kind) → ∃ t, exec i s = .next t)

/-- A faulting step changes nothing but the reported outcome: the spec's decision D5 (log 9). -/
def Obligations.FaultingStepIsVoid : Prop :=
  ∀ (s : State) (rnd : Option Byte) (kind : Fault), engineStep (s.beginStep rnd) = .fault kind →
    (s.afterStep rnd).outcome = .fault kind ∧ (s.afterStep rnd).pc = s.pc ∧ KeepsAllBut [] s (s.afterStep rnd)

/-- After a fault the block is stuck: whatever the host does short of a reset, every later step raises the same fault at
the same `pc`. It rests on the spec's decisions D5 and D17 (log 9, log 1). -/
def Obligations.FaultedBlockIsStuck : Prop :=
  ∀ (s : State) (kind : Fault) (events : List Event), (∀ e ∈ events, e.isInit = false) →
    engineStep s = .fault kind →
    engineStep (s.afterEvents events) = .fault kind ∧ (s.afterEvents events).pc = s.pc

/-! ## Who may write what (10_state.md) -/

/-- VF is written as a side effect by six operations only, with 0 or 1; any other instruction writes it only through its
own `x` field. -/
def Obligations.OnlySixOperationsWriteVf : Prop :=
  ∀ (i : Instr) (s t : State), exec i s = .next t →
    (i.mnemonic ∈ ["ADD", "SUB", "SHR", "SUBN", "SHL", "DRW"] → t.getV 15 = 0 ∨ t.getV 15 = 1) ∧
    (i.mnemonic ∉ ["ADD", "SUB", "SHR", "SUBN", "SHL", "DRW"] → writtenThroughX i ≠ some 15 → t.getV 15 = s.getV 15)

/-- Which instructions may change each piece of state; no instruction changes a key or the sound signal, and none clears
`redraw`. -/
def Obligations.EachPartHasItsWriters : Prop :=
  ∀ (i : Instr) (s t : State), exec i s = .next t →
    (i.mnemonic ∉ ["LDIX", "ADDIX", "FONT"] → t.i = s.i) ∧
    (i.mnemonic ≠ "CALL" → t.stack = s.stack) ∧ (i.mnemonic ∉ ["CALL", "RET"] → t.sp = s.sp) ∧
    (i.mnemonic ≠ "WRDT" → t.dt = s.dt) ∧ (i.mnemonic ≠ "WRST" → t.st = s.st) ∧
    (i.mnemonic ∉ ["CLS", "DRW"] → (∀ p, Framebuffer.get t.fb p = Framebuffer.get s.fb p) ∧ t.redraw = s.redraw) ∧
    (i.mnemonic ∉ ["BCD", "STM"] → ∀ a, t.mem.read a = s.mem.read a) ∧
    (∀ k, t.keyDown k = s.keyDown k) ∧ t.soundZero = s.soundZero ∧ (s.redraw = true → t.redraw = true)

/-! ## The call stack -/

/-- Calls up to 16 deep succeed and one more is a stack overflow; as many returns as calls come back to the instruction
after the first call with the stack as it was. -/
def Obligations.NestedCallsReturn : Prop :=
  ∀ (targets : List Addr) (s : State), targets ≠ [] →
    (s.sp.val + targets.length ≤ 16 →
      ∃ t, execAll (targets.map Instr.call ++ List.replicate targets.length Instr.ret) s = .next t ∧
        t.pc = s.pc + 2 ∧ t.sp = s.sp ∧ (∀ k : Fin 16, k.val < s.sp.val → t.stack[k] = s.stack[k]) ∧
        KeepsAllBut [.stack] s t) ∧
    (16 < s.sp.val + targets.length → execAll (targets.map Instr.call) s = .fault .stackOverflow)

/-! ## The invariant -/

/-- Every step keeps the invariant, whichever event it is. The canonical form of memory in it is the model's own (log 18). -/
def Obligations.StepKeepsTheInvariant : Prop :=
  ∀ s t : State, s.Inv → step s = .next t → t.Inv

/-- The invariant holds at reset. The canonical form of memory in it is the model's own (log 18). -/
def Obligations.ResetMeetsTheInvariant : Prop := State.reset.Inv

/-- Under every schedule of host events, which may load any program, every state reached from reset meets the invariant:
`pc` never passes 0x10FE. The schedule is the model's own field (log 2), the canonical form of memory its own too
(log 18). -/
def Obligations.EveryScheduleKeepsTheInvariant : Prop :=
  ∀ (schedule : List Event) (n : Nat) (t : State), RunsFromReset schedule n t → t.Inv

/-! ## Reset and the host's events (70_reset_and_hazards.md, 60_exceptions.md) -/

/-- What a reset that succeeds leaves (R25, R160), for every font table of at most 0x200 bytes and every program image that
fits; and what the init event does to a block without a state, to a block with one and as the next event of the machine:
every piece of the spec's state has its reset value, whatever it held before. How the outcome and the sound signal are held
is the spec's decision D3 (log 15). The model's own choices: the canonical form of memory (log 18), the font's bytes
(log 4), and that the model's own fields outlive a reset (log 2, log 3). -/
def Obligations.ResetBuildsTheStartState : Prop :=
  (∀ font rom : List Byte, font.length ≤ 0x200 → rom.length ≤ 3584 →
    ∃ t, initWith font rom = some t ∧ HoldsResetValues font rom t ∧ t.mem.wf) ∧
  (∀ rom : List Byte, rom.length ≤ 3584 →
    (∃ t, initBlock rom = some t ∧ HoldsResetValues fontTable rom t ∧ t.mem.wf) ∧
    blockEvent none (.init rom) = (initBlock rom, .done) ∧
    (∀ s : State, ∃ u, blockEvent (some s) (.init rom) = (some u, .done) ∧ HoldsResetValues fontTable rom u ∧
      u.mem.wf ∧ u.agenda = s.agenda ∧ u.rnd = s.rnd ∧ u.rndCount = s.rndCount) ∧
    (∀ (s : State) (rest : List Event), s.agenda = .init rom :: rest →
      ∃ u, step s = .next u ∧ HoldsResetValues fontTable rom u ∧ u.mem.wf ∧ u.agenda = rest ∧ u.rnd = s.rnd ∧
        u.rndCount = s.rndCount))

/-- A rom fails exactly when it is longer than 3584 bytes; a failed reset keeps an earlier state whole and leaves a block
without a state without one, and such a block accepts no other event. The last two are the spec's decision D19 (log 16). -/
def Obligations.TooLongRomChangesNothing : Prop :=
  ∀ rom : List Byte,
    ((∀ font, initWith font rom = none) ↔ 3584 < rom.length) ∧
    (3584 < rom.length → ∀ s : State, blockEvent (some s) (.init rom) = (some s, .capacityError)) ∧
    (3584 < rom.length → blockEvent none (.init rom) = (none, .capacityError)) ∧
    (∀ e : Event, e.isInit = false → blockEvent none e = (none, .notInitialized))

/-- The model's reset state is what a reset with an empty program image builds; its font bytes are the model's choice
(log 4). -/
def Obligations.ResetStateIsTheEmptyRomReset : Prop := initBlock [] = some State.reset

/-- R148: one tick. -/
def Obligations.TickCountsBothTimersDown : Prop :=
  ∀ s : State,
    s.tick.soundZero = decide (s.st.toNat = 1) ∧
    s.tick.dt.toNat = (if s.dt.toNat > 0 then s.dt.toNat - 1 else s.dt.toNat) ∧
    s.tick.st.toNat = (if s.st.toNat > 0 then s.st.toNat - 1 else s.st.toNat) ∧
    s.tick.pc = s.pc ∧ s.tick.outcome = s.outcome ∧ KeepsAllBut [.dt, .st, .soundZero] s s.tick

/-- Any number of ticks: the timers stop at 0 and never pass below it. -/
def Obligations.TicksStopAtZero : Prop :=
  ∀ (n : Nat) (s : State),
    (s.afterEvents (List.replicate n Event.tick)).dt.toNat = s.dt.toNat - n ∧
    (s.afterEvents (List.replicate n Event.tick)).st.toNat = s.st.toNat - n

/-- R151, R152: `setKey` writes one key and `clearRedraw` clears the flag, each as the next event of the machine (the agenda
that orders them is the model's own field, log 2). -/
def Obligations.KeyAndRedrawEventsWriteOneSlice : Prop :=
  ∀ (s : State) (rest : List Event),
    (∀ k down, s.agenda = .setKey k down :: rest →
      ∃ t, step s = .next t ∧ t.keyDown k = down ∧ (∀ j, j ≠ k → t.keyDown j = s.keyDown j) ∧ t.pc = s.pc ∧
        t.outcome = s.outcome ∧ t.agenda = rest ∧ KeepsAllBut [.key, .agenda] s t) ∧
    (s.agenda = .clearRedraw :: rest →
      ∃ t, step s = .next t ∧ t.redraw = false ∧ t.pc = s.pc ∧ t.outcome = s.outcome ∧ t.agenda = rest ∧
        KeepsAllBut [.redraw, .agenda] s t)

/-- The machine behind the host's interface and the block as the host sees it agree on every scheduled event; a fault of
the first is recorded in the second (log 1, log 2). -/
def Obligations.StepAgreesWithTheBlock : Prop :=
  ∀ (s : State) (e : Event) (rest : List Event), s.agenda = e :: rest →
    (∀ t, step s = .next t → blockEvent (some (s.withAgenda rest)) e = (some t, (s.withAgenda rest).replyTo e)) ∧
    (∀ kind, step s = .fault kind →
      ∃ rnd, e = .step rnd ∧ blockEvent (some (s.withAgenda rest)) e =
        (some { s with agenda := rest, outcome := .fault kind }, .stepped (.fault kind))) ∧
    (∀ r, step s ≠ .refused r)
end

