-- ==== Sys2Proof/Laws/Decode.lean ====
section
/-! SUPPORT. The fields of a word as numbers (R46), the words of the encoder as numbers, and the fields of an encoded word. -/

namespace Sys2Proof

@[simp] theorem regOf_nibOf (x : Reg) : regOf (nibOf x) = x := rfl

@[simp] theorem nibOf_regOf (d : Nibble) : nibOf (regOf d) = d := rfl

@[simp] theorem nibOf_toNat (x : Reg) : (nibOf x).toNat = x.val := rfl

@[simp] theorem regOf_val (d : Nibble) : (regOf d).val = d.toNat := rfl

/-- Concatenation as a number (R5). -/
theorem toNat_concat {m n : Nat} (a : BitVec m) (b : BitVec n) : (a ++ b).toNat = a.toNat * 2 ^ n + b.toNat := by
  rw [BitVec.toNat_append, ← Nat.shiftLeft_add_eq_or_of_lt b.isLt, Nat.shiftLeft_eq]

/-! ## The fields of a word (R46) -/

theorem fields_op_toNat (w : Word) : (fields w).op.toNat = w.toNat / 4096 % 16 := by
  simp [fields, BitVec.extractLsb'_toNat, Nat.shiftRight_eq_div_pow]

theorem fields_x_toNat (w : Word) : (fields w).x.toNat = w.toNat / 256 % 16 := by
  simp [fields, BitVec.extractLsb'_toNat, Nat.shiftRight_eq_div_pow]

theorem fields_y_toNat (w : Word) : (fields w).y.toNat = w.toNat / 16 % 16 := by
  simp [fields, BitVec.extractLsb'_toNat, Nat.shiftRight_eq_div_pow]

theorem fields_n_toNat (w : Word) : (fields w).n.toNat = w.toNat % 16 := by
  simp [fields, BitVec.extractLsb'_toNat]

theorem Fields.nn_toNat (f : Fields) : f.nn.toNat = f.y.toNat * 16 + f.n.toNat := toNat_concat f.y f.n

theorem Fields.nnn_toNat (f : Fields) : f.nnn.toNat = (f.x.toNat * 16 + f.y.toNat) * 16 + f.n.toNat :=
  (toNat_concat (f.x ++ f.y) f.n).trans (by rw [toNat_concat]; omega)

/-- The immediate byte of a word is its low eight bits. -/
theorem fields_nn_toNat (w : Word) : (fields w).nn.toNat = w.toNat % 256 := by
  rw [Fields.nn_toNat, fields_y_toNat, fields_n_toNat]; omega

/-- The address of a word is its low twelve bits. -/
theorem fields_nnn_toNat (w : Word) : (fields w).nnn.toNat = w.toNat % 4096 := by
  rw [Fields.nnn_toNat, fields_x_toNat, fields_y_toNat, fields_n_toNat]; omega

/-! ## Words built from fields -/

theorem word_nnn_toNat (op : Nibble) (nnn : Addr) : (op ++ nnn : Word).toNat = op.toNat * 4096 + nnn.toNat :=
  toNat_concat op nnn

theorem word_xnn_toNat (op x : Nibble) (nn : Byte) :
    (op ++ x ++ nn : Word).toNat = op.toNat * 4096 + x.toNat * 256 + nn.toNat :=
  (toNat_concat (op ++ x) nn).trans (by rw [toNat_concat]; omega)

theorem word_xyn_toNat (op x y n : Nibble) :
    (op ++ x ++ y ++ n : Word).toNat = op.toNat * 4096 + x.toNat * 256 + y.toNat * 16 + n.toNat :=
  (toNat_concat (op ++ x ++ y) n).trans (by rw [toNat_concat, toNat_concat]; omega)

/-- The fields of `op : nnn`. -/
theorem fields_word_nnn (op : Nibble) (nnn : Addr) :
    (fields (op ++ nnn : Word)).op = op ∧ (fields (op ++ nnn : Word)).nnn = nnn := by
  constructor <;> apply BitVec.eq_of_toNat_eq
  · rw [fields_op_toNat, word_nnn_toNat]; omega
  · rw [fields_nnn_toNat, word_nnn_toNat]; omega

/-- The fields of `op : x : nn`. -/
theorem fields_word_xnn (op x : Nibble) (nn : Byte) :
    (fields (op ++ x ++ nn : Word)).op = op ∧ (fields (op ++ x ++ nn : Word)).x = x ∧
      (fields (op ++ x ++ nn : Word)).nn = nn := by
  refine ⟨?_, ?_, ?_⟩ <;> apply BitVec.eq_of_toNat_eq
  · rw [fields_op_toNat, word_xnn_toNat]; omega
  · rw [fields_x_toNat, word_xnn_toNat]; omega
  · rw [fields_nn_toNat, word_xnn_toNat]; omega

/-- The fields of `op : x : y : n`. -/
theorem fields_word_xyn (op x y n : Nibble) : fields (op ++ x ++ y ++ n : Word) = ⟨op, x, y, n⟩ := by
  have h1 : (fields (op ++ x ++ y ++ n : Word)).op = op := by
    apply BitVec.eq_of_toNat_eq; rw [fields_op_toNat, word_xyn_toNat]; omega
  have h2 : (fields (op ++ x ++ y ++ n : Word)).x = x := by
    apply BitVec.eq_of_toNat_eq; rw [fields_x_toNat, word_xyn_toNat]; omega
  have h3 : (fields (op ++ x ++ y ++ n : Word)).y = y := by
    apply BitVec.eq_of_toNat_eq; rw [fields_y_toNat, word_xyn_toNat]; omega
  have h4 : (fields (op ++ x ++ y ++ n : Word)).n = n := by
    apply BitVec.eq_of_toNat_eq; rw [fields_n_toNat, word_xyn_toNat]; omega
  rw [show fields (op ++ x ++ y ++ n : Word) = ⟨_, _, _, _⟩ from rfl, Fields.mk.injEq]
  exact ⟨h1, h2, h3, h4⟩

/-- A word is its four nibbles. -/
theorem word_of_fields (w : Word) :
    ((fields w).op ++ (fields w).x ++ (fields w).y ++ (fields w).n : Word) = w := by
  apply BitVec.eq_of_toNat_eq
  rw [word_xyn_toNat, fields_op_toNat, fields_x_toNat, fields_y_toNat, fields_n_toNat]
  have := w.isLt
  omega

/-! ## Bytes of a word (R33) -/

theorem hiByte_toNat (w : Word) : (hiByte w).toNat = w.toNat / 256 := by
  have := w.isLt
  simp [hiByte, BitVec.extractLsb'_toNat, Nat.shiftRight_eq_div_pow]; omega

theorem loByte_toNat (w : Word) : (loByte w).toNat = w.toNat % 256 := by
  simp [loByte, BitVec.extractLsb'_toNat]

/-- A fetched word as a number (R62). -/
theorem bytes_toNat (hi lo : Byte) : (hi ++ lo : Word).toNat = hi.toNat * 256 + lo.toNat := toNat_concat hi lo

@[simp] theorem hiByte_append_loByte (w : Word) : (hiByte w ++ loByte w : Word) = w := by
  apply BitVec.eq_of_toNat_eq
  rw [bytes_toNat, hiByte_toNat, loByte_toNat]; omega

theorem decodeWord_ok {w : Word} {i : Instr} : decodeWord w = .ok i ↔ decodeFields (fields w) = some i := by
  unfold decodeWord; cases decodeFields (fields w) <;> simp

theorem decodeWord_error {w : Word} {e : DecodeError} :
    decodeWord w = .error e ↔ decodeFields (fields w) = none ∧ e = .unrecognized w := by
  unfold decodeWord
  cases decodeFields (fields w) with
  | none => simpa using eq_comm
  | some i => simp

end Sys2Proof
end

