-- ==== Sys2Proof/Laws/Display.lean ====
section
/-! SUPPORT. Pixels: a read after a flip, what drawing a list of pixels leaves, and that one sprite's pixels are distinct. -/

namespace Sys2Proof.Machine

theorem Framebuffer.get_flip (fb : Framebuffer) (p q : Pixel) :
    Framebuffer.get (Framebuffer.flip fb p) q = if q = p then !Framebuffer.get fb q else Framebuffer.get fb q := by
  obtain ⟨r, c⟩ := p
  obtain ⟨r', c'⟩ := q
  simp only [Framebuffer.get, Framebuffer.flip, Fin.getElem_fin, Vector.getElem_set, Prod.mk.injEq, Fin.ext_iff]
  by_cases hr : r.val = r'.val
  · by_cases hc : c.val = c'.val
    · simp [hr, hc]
    · simp [hr, hc, Ne.symm hc]
  · simp [hr, Ne.symm hr]

@[simp] theorem Framebuffer.get_clear (p : Pixel) : Framebuffer.get Framebuffer.clear p = false := by
  simp [Framebuffer.get, Framebuffer.clear]

/-- Framebuffers with equal pixels are equal. -/
theorem Framebuffer.ext_get {a b : Framebuffer} (h : ∀ p, Framebuffer.get a p = Framebuffer.get b p) : a = b := by
  apply Vector.ext
  intro r hr
  apply Vector.ext
  intro c hc
  exact h (⟨r, hr⟩, ⟨c, hc⟩)

/-- Drawing distinct pixels flips exactly those; the hit says whether one of them was set (R121). -/
theorem drawPixels_spec {ps : List Pixel} (hnd : ps.Nodup) (fb : Framebuffer) (hit : Bool) :
    (∀ q, Framebuffer.get (drawPixels ps (fb, hit)).1 q = (Framebuffer.get fb q ^^ decide (q ∈ ps))) ∧
    (drawPixels ps (fb, hit)).2 = (hit || ps.any (Framebuffer.get fb)) := by
  induction ps generalizing fb hit with
  | nil => simp [drawPixels]
  | cons p ps ih =>
    have hp : p ∉ ps := (List.nodup_cons.1 hnd).1
    obtain ⟨h1, h2⟩ := ih (List.nodup_cons.1 hnd).2 (Framebuffer.flip fb p) (hit || Framebuffer.get fb p)
    refine ⟨fun q => ?_, ?_⟩
    · rw [drawPixels, h1, Framebuffer.get_flip]
      by_cases hq : q = p
      · subst hq; simp [hp]
      · simp [hq]
    · have hsame : ps.any (Framebuffer.get (Framebuffer.flip fb p)) = ps.any (Framebuffer.get fb) := by
        rw [Bool.eq_iff_iff, List.any_eq_true, List.any_eq_true]
        refine exists_congr fun q => and_congr_right fun hq => ?_
        rw [Framebuffer.get_flip, if_neg (fun e : q = p => hp (e ▸ hq))]
      rw [drawPixels, h2, hsame, List.any_cons, Bool.or_assoc]

/-- A pixel lies under the sprite exactly when some set bit of some row lands on it (R122). -/
theorem State.mem_spritePixels (s : State) (x y : Reg) (n : Nat) (p : Pixel) :
    p ∈ s.spritePixels x y n ↔ ∃ r k, r < n ∧ k < 8 ∧ spriteBit (s.mem.read (s.i.toNat + r)) k = true ∧
      p.1.val = ((s.getV y).toNat + r) % 32 ∧ p.2.val = ((s.getV x).toNat + k) % 64 := by
  obtain ⟨pr, pc⟩ := p
  simp only [State.spritePixels, spriteRow, List.mem_flatMap, List.mem_map, List.mem_filter, List.mem_range,
    State.effectiveAddress, Prod.mk.injEq, wrapRow, wrapColumn, Fin.ext_iff]
  constructor
  · rintro ⟨r, hr, k, ⟨hk, hb⟩, h1, h2⟩; exact ⟨r, k, hr, hk, hb, h1.symm, h2.symm⟩
  · rintro ⟨r, k, hr, hk, hb, h1, h2⟩; exact ⟨r, hr, k, ⟨hk, hb⟩, h1.symm, h2.symm⟩

/-- One draw never touches the same pixel twice (R122). -/
theorem State.nodup_spritePixels (s : State) (x y : Reg) {n : Nat} (hn : n ≤ 32) : (s.spritePixels x y n).Nodup := by
  unfold State.spritePixels
  rw [List.nodup_flatMap]
  constructor
  · intro r _
    unfold spriteRow
    refine List.Nodup.map_on ?_ (List.Nodup.filter _ List.nodup_range)
    intro a ha b hb hab
    have ha : a < 8 := List.mem_range.1 (List.mem_of_mem_filter ha)
    have hb : b < 8 := List.mem_range.1 (List.mem_of_mem_filter hb)
    simp only [Prod.mk.injEq, wrapColumn, Fin.ext_iff] at hab
    omega
  · refine List.Pairwise.imp_of_mem ?_ List.nodup_range
    intro a b ha hb hab
    have ha : a < n := List.mem_range.1 ha
    have hb : b < n := List.mem_range.1 hb
    intro p hpa hpb
    unfold spriteRow at hpa hpb
    obtain ⟨_, _, rfl⟩ := List.mem_map.1 hpa
    obtain ⟨_, _, he⟩ := List.mem_map.1 hpb
    simp only [Prod.mk.injEq, wrapRow, Fin.ext_iff] at he
    omega

end Sys2Proof.Machine
end

