-- ==== Sys2Proof/Laws/Memory.lean ====
section
/-! SUPPORT. Memory: a read after a write, and the canonical form is kept by every memory operation. -/

namespace Sys2Proof.Machine.Memory

@[simp] theorem read_nil (a : Nat) : read [] a = unlisted a := rfl

theorem read_cell (k : Nat) (b : Byte) (m : Memory) (a : Nat) :
    read ((k, b) :: m) a = if k = a then b else read m a := rfl

/-- An address below every listed one reads as unlisted. -/
theorem read_of_lt {m : Memory} {a : Nat} (h : ∀ p ∈ m, a < p.1) : read m a = unlisted a := by
  induction m with
  | nil => rfl
  | cons p m ih =>
    obtain ⟨k, b⟩ := p
    have hk : a < k := h (k, b) (by simp)
    rw [read_cell, if_neg (by omega)]
    exact ih fun q hq => h q (by simp [hq])

/-- A cell in front of higher ones decides its own address and no other. -/
theorem read_cons {m : Memory} {a : Nat} (b : Byte) (h : ∀ p ∈ m, a < p.1) (c : Nat) :
    read (cons a b m) c = if c = a then b else read m c := by
  unfold cons
  by_cases hb : b = unlisted a
  · rw [if_pos hb]
    split
    · next hc => rw [hc, read_of_lt h, hb]
    · rfl
  · rw [if_neg hb, read_cell]
    by_cases hc : c = a
    · simp [hc]
    · rw [if_neg (Ne.symm hc), if_neg hc]

theorem wf_nil : wf [] := by simp [wf]

theorem wf_tail {p : Host.Cell} {m : Memory} (h : wf (p :: m)) : wf m :=
  ⟨(List.pairwise_cons.1 h.1).2, fun q hq => h.2 q (by simp [hq])⟩

theorem wf_head_lt {p : Host.Cell} {m : Memory} (h : wf (p :: m)) : ∀ q ∈ m, p.1 < q.1 :=
  (List.pairwise_cons.1 h.1).1

theorem wf_cons {m : Memory} {a : Nat} {b : Byte} (hm : wf m) (ha : a < Config.memSize) (h : ∀ p ∈ m, a < p.1) :
    wf (cons a b m) := by
  unfold cons
  split
  · exact hm
  · next hb =>
    refine ⟨List.pairwise_cons.2 ⟨h, hm.1⟩, fun p hp => ?_⟩
    rcases List.mem_cons.1 hp with rfl | hp
    · exact ⟨ha, hb⟩
    · exact hm.2 p hp

theorem mem_cons_of {m : Memory} {a : Nat} {b : Byte} {p : Host.Cell} (h : p ∈ cons a b m) : p = (a, b) ∨ p ∈ m := by
  unfold cons at h
  split at h
  · exact .inr h
  · exact List.mem_cons.1 h

/-- A write adds no address but its own. -/
theorem mem_write {m : Memory} {a : Nat} {b : Byte} {p : Host.Cell} (h : p ∈ write m a b) : p = (a, b) ∨ p ∈ m := by
  induction m with
  | nil => exact mem_cons_of h
  | cons q m ih =>
    obtain ⟨k, c⟩ := q
    unfold write at h
    split at h
    · exact mem_cons_of h
    · split at h
      · rcases mem_cons_of h with h | h
        · exact .inl h
        · exact .inr (by simp [h])
      · rcases List.mem_cons.1 h with h | h
        · exact .inr (by simp [h])
        · rcases ih h with h | h
          · exact .inl h
          · exact .inr (by simp [h])

/-- A write inside memory keeps the canonical form. -/
theorem wf_write {m : Memory} (hm : wf m) {a : Nat} (ha : a < Config.memSize) (b : Byte) : wf (write m a b) := by
  induction m with
  | nil => exact wf_cons wf_nil ha (by simp)
  | cons q m ih =>
    obtain ⟨k, c⟩ := q
    unfold write
    split
    · next hak =>
      refine wf_cons hm ha fun p hp => ?_
      rcases List.mem_cons.1 hp with rfl | hp
      · exact hak
      · exact Nat.lt_trans hak (wf_head_lt hm p hp)
    · split
      · next hak => exact wf_cons (wf_tail hm) ha fun p hp => hak ▸ wf_head_lt hm p hp
      · next h1 h2 =>
        have ih := ih (wf_tail hm)
        refine ⟨List.pairwise_cons.2 ⟨fun p hp => ?_, ih.1⟩, fun p hp => ?_⟩
        · rcases mem_write hp with rfl | hp
          · show k < a; omega
          · exact wf_head_lt hm p hp
        · rcases List.mem_cons.1 hp with rfl | hp
          · exact hm.2 (k, c) (by simp)
          · exact ih.2 p hp

/-- A read after a write. -/
theorem read_write {m : Memory} (hm : wf m) (a : Nat) (b : Byte) (c : Nat) :
    read (write m a b) c = if c = a then b else read m c := by
  induction m with
  | nil => exact read_cons b (by simp) c
  | cons q m ih =>
    obtain ⟨k, d⟩ := q
    unfold write
    split
    · next hak =>
      refine read_cons b (fun p hp => ?_) c
      rcases List.mem_cons.1 hp with rfl | hp
      · exact hak
      · exact Nat.lt_trans hak (wf_head_lt hm p hp)
    · split
      · next hak =>
        subst hak
        rw [read_cons b (wf_head_lt hm) c, read_cell]
        by_cases hc : c = a
        · simp [hc]
        · rw [if_neg hc, if_neg hc, if_neg (Ne.symm hc)]
      · next h1 h2 =>
        rw [read_cell, read_cell, ih (wf_tail hm)]
        by_cases hk : k = c
        · rw [if_pos hk, if_pos hk, if_neg (by omega)]
        · rw [if_neg hk, if_neg hk]

theorem wf_store {m : Memory} (hm : wf m) {a : Nat} {bs : List Byte} (h : a + bs.length ≤ Config.memSize) :
    wf (store m a bs) := by
  induction bs generalizing m a with
  | nil => exact hm
  | cons b bs ih =>
    have hl : a + (bs.length + 1) ≤ Config.memSize := by simpa using h
    exact ih (wf_write hm (by omega) b) (by omega)

/-- A read after a store of bytes: the stored byte inside the stored range, the old byte elsewhere. -/
theorem read_store {m : Memory} (hm : wf m) {a : Nat} {bs : List Byte} (h : a + bs.length ≤ Config.memSize) (c : Nat) :
    read (store m a bs) c = if a ≤ c ∧ c < a + bs.length then bs.getD (c - a) 0 else read m c := by
  induction bs generalizing m a with
  | nil => rw [store, if_neg (by simp)]
  | cons b bs ih =>
    have hl : a + (bs.length + 1) ≤ Config.memSize := by simpa using h
    rw [store, ih (wf_write hm (by omega) b) (by omega), read_write hm]
    simp only [List.length_cons]
    by_cases hc : c = a
    · subst hc
      rw [if_neg (by omega), if_pos rfl, if_pos (by omega)]
      simp
    · by_cases hin : a + 1 ≤ c ∧ c < a + 1 + bs.length
      · rw [if_pos hin, if_pos (by omega)]
        obtain ⟨d, rfl⟩ : ∃ d, c = a + 1 + d := ⟨c - (a + 1), by omega⟩
        rw [show a + 1 + d - (a + 1) = d by omega, show a + 1 + d - a = d + 1 by omega]
        simp
      · rw [if_neg hin, if_neg hc, if_neg (by omega)]

end Sys2Proof.Machine.Memory
end

