-- ==== Sys2Proof/Laws/State.lean ====
section
/-! SUPPORT. One lemma per field per update of the state, each true by rfl: a proof that reads a field after an update cites
these and never unfolds the update. -/

namespace Sys2Proof.Machine.State

variable (s : State)

/-! `setV` -/

@[simp] theorem setV_v (x : Reg) (b : Byte) : (s.setV x b).v = s.v.set x b := rfl
@[simp] theorem setV_i (x : Reg) (b : Byte) : (s.setV x b).i = s.i := rfl
@[simp] theorem setV_pc (x : Reg) (b : Byte) : (s.setV x b).pc = s.pc := rfl
@[simp] theorem setV_stack (x : Reg) (b : Byte) : (s.setV x b).stack = s.stack := rfl
@[simp] theorem setV_sp (x : Reg) (b : Byte) : (s.setV x b).sp = s.sp := rfl
@[simp] theorem setV_dt (x : Reg) (b : Byte) : (s.setV x b).dt = s.dt := rfl
@[simp] theorem setV_st (x : Reg) (b : Byte) : (s.setV x b).st = s.st := rfl
@[simp] theorem setV_fb (x : Reg) (b : Byte) : (s.setV x b).fb = s.fb := rfl
@[simp] theorem setV_redraw (x : Reg) (b : Byte) : (s.setV x b).redraw = s.redraw := rfl
@[simp] theorem setV_key (x : Reg) (b : Byte) : (s.setV x b).key = s.key := rfl
@[simp] theorem setV_mem (x : Reg) (b : Byte) : (s.setV x b).mem = s.mem := rfl
@[simp] theorem setV_outcome (x : Reg) (b : Byte) : (s.setV x b).outcome = s.outcome := rfl
@[simp] theorem setV_soundZero (x : Reg) (b : Byte) : (s.setV x b).soundZero = s.soundZero := rfl
@[simp] theorem setV_agenda (x : Reg) (b : Byte) : (s.setV x b).agenda = s.agenda := rfl
@[simp] theorem setV_rnd (x : Reg) (b : Byte) : (s.setV x b).rnd = s.rnd := rfl
@[simp] theorem setV_rndCount (x : Reg) (b : Byte) : (s.setV x b).rndCount = s.rndCount := rfl

/-! `setI` -/

@[simp] theorem setI_v (w : Word) : (s.setI w).v = s.v := rfl
@[simp] theorem setI_i (w : Word) : (s.setI w).i = w := rfl
@[simp] theorem setI_pc (w : Word) : (s.setI w).pc = s.pc := rfl
@[simp] theorem setI_stack (w : Word) : (s.setI w).stack = s.stack := rfl
@[simp] theorem setI_sp (w : Word) : (s.setI w).sp = s.sp := rfl
@[simp] theorem setI_dt (w : Word) : (s.setI w).dt = s.dt := rfl
@[simp] theorem setI_st (w : Word) : (s.setI w).st = s.st := rfl
@[simp] theorem setI_fb (w : Word) : (s.setI w).fb = s.fb := rfl
@[simp] theorem setI_redraw (w : Word) : (s.setI w).redraw = s.redraw := rfl
@[simp] theorem setI_key (w : Word) : (s.setI w).key = s.key := rfl
@[simp] theorem setI_mem (w : Word) : (s.setI w).mem = s.mem := rfl
@[simp] theorem setI_outcome (w : Word) : (s.setI w).outcome = s.outcome := rfl
@[simp] theorem setI_soundZero (w : Word) : (s.setI w).soundZero = s.soundZero := rfl
@[simp] theorem setI_agenda (w : Word) : (s.setI w).agenda = s.agenda := rfl
@[simp] theorem setI_rnd (w : Word) : (s.setI w).rnd = s.rnd := rfl
@[simp] theorem setI_rndCount (w : Word) : (s.setI w).rndCount = s.rndCount := rfl

/-! `setDT` -/

@[simp] theorem setDT_v (b : Byte) : (s.setDT b).v = s.v := rfl
@[simp] theorem setDT_i (b : Byte) : (s.setDT b).i = s.i := rfl
@[simp] theorem setDT_pc (b : Byte) : (s.setDT b).pc = s.pc := rfl
@[simp] theorem setDT_stack (b : Byte) : (s.setDT b).stack = s.stack := rfl
@[simp] theorem setDT_sp (b : Byte) : (s.setDT b).sp = s.sp := rfl
@[simp] theorem setDT_dt (b : Byte) : (s.setDT b).dt = b := rfl
@[simp] theorem setDT_st (b : Byte) : (s.setDT b).st = s.st := rfl
@[simp] theorem setDT_fb (b : Byte) : (s.setDT b).fb = s.fb := rfl
@[simp] theorem setDT_redraw (b : Byte) : (s.setDT b).redraw = s.redraw := rfl
@[simp] theorem setDT_key (b : Byte) : (s.setDT b).key = s.key := rfl
@[simp] theorem setDT_mem (b : Byte) : (s.setDT b).mem = s.mem := rfl
@[simp] theorem setDT_outcome (b : Byte) : (s.setDT b).outcome = s.outcome := rfl
@[simp] theorem setDT_soundZero (b : Byte) : (s.setDT b).soundZero = s.soundZero := rfl
@[simp] theorem setDT_agenda (b : Byte) : (s.setDT b).agenda = s.agenda := rfl
@[simp] theorem setDT_rnd (b : Byte) : (s.setDT b).rnd = s.rnd := rfl
@[simp] theorem setDT_rndCount (b : Byte) : (s.setDT b).rndCount = s.rndCount := rfl

/-! `setST` -/

@[simp] theorem setST_v (b : Byte) : (s.setST b).v = s.v := rfl
@[simp] theorem setST_i (b : Byte) : (s.setST b).i = s.i := rfl
@[simp] theorem setST_pc (b : Byte) : (s.setST b).pc = s.pc := rfl
@[simp] theorem setST_stack (b : Byte) : (s.setST b).stack = s.stack := rfl
@[simp] theorem setST_sp (b : Byte) : (s.setST b).sp = s.sp := rfl
@[simp] theorem setST_dt (b : Byte) : (s.setST b).dt = s.dt := rfl
@[simp] theorem setST_st (b : Byte) : (s.setST b).st = b := rfl
@[simp] theorem setST_fb (b : Byte) : (s.setST b).fb = s.fb := rfl
@[simp] theorem setST_redraw (b : Byte) : (s.setST b).redraw = s.redraw := rfl
@[simp] theorem setST_key (b : Byte) : (s.setST b).key = s.key := rfl
@[simp] theorem setST_mem (b : Byte) : (s.setST b).mem = s.mem := rfl
@[simp] theorem setST_outcome (b : Byte) : (s.setST b).outcome = s.outcome := rfl
@[simp] theorem setST_soundZero (b : Byte) : (s.setST b).soundZero = s.soundZero := rfl
@[simp] theorem setST_agenda (b : Byte) : (s.setST b).agenda = s.agenda := rfl
@[simp] theorem setST_rnd (b : Byte) : (s.setST b).rnd = s.rnd := rfl
@[simp] theorem setST_rndCount (b : Byte) : (s.setST b).rndCount = s.rndCount := rfl

/-! `setMem` -/

@[simp] theorem setMem_v (m : Memory) : (s.setMem m).v = s.v := rfl
@[simp] theorem setMem_i (m : Memory) : (s.setMem m).i = s.i := rfl
@[simp] theorem setMem_pc (m : Memory) : (s.setMem m).pc = s.pc := rfl
@[simp] theorem setMem_stack (m : Memory) : (s.setMem m).stack = s.stack := rfl
@[simp] theorem setMem_sp (m : Memory) : (s.setMem m).sp = s.sp := rfl
@[simp] theorem setMem_dt (m : Memory) : (s.setMem m).dt = s.dt := rfl
@[simp] theorem setMem_st (m : Memory) : (s.setMem m).st = s.st := rfl
@[simp] theorem setMem_fb (m : Memory) : (s.setMem m).fb = s.fb := rfl
@[simp] theorem setMem_redraw (m : Memory) : (s.setMem m).redraw = s.redraw := rfl
@[simp] theorem setMem_key (m : Memory) : (s.setMem m).key = s.key := rfl
@[simp] theorem setMem_mem (m : Memory) : (s.setMem m).mem = m := rfl
@[simp] theorem setMem_outcome (m : Memory) : (s.setMem m).outcome = s.outcome := rfl
@[simp] theorem setMem_soundZero (m : Memory) : (s.setMem m).soundZero = s.soundZero := rfl
@[simp] theorem setMem_agenda (m : Memory) : (s.setMem m).agenda = s.agenda := rfl
@[simp] theorem setMem_rnd (m : Memory) : (s.setMem m).rnd = s.rnd := rfl
@[simp] theorem setMem_rndCount (m : Memory) : (s.setMem m).rndCount = s.rndCount := rfl

/-! `countRnd` -/

@[simp] theorem countRnd_v : s.countRnd.v = s.v := rfl
@[simp] theorem countRnd_i : s.countRnd.i = s.i := rfl
@[simp] theorem countRnd_pc : s.countRnd.pc = s.pc := rfl
@[simp] theorem countRnd_stack : s.countRnd.stack = s.stack := rfl
@[simp] theorem countRnd_sp : s.countRnd.sp = s.sp := rfl
@[simp] theorem countRnd_dt : s.countRnd.dt = s.dt := rfl
@[simp] theorem countRnd_st : s.countRnd.st = s.st := rfl
@[simp] theorem countRnd_fb : s.countRnd.fb = s.fb := rfl
@[simp] theorem countRnd_redraw : s.countRnd.redraw = s.redraw := rfl
@[simp] theorem countRnd_key : s.countRnd.key = s.key := rfl
@[simp] theorem countRnd_mem : s.countRnd.mem = s.mem := rfl
@[simp] theorem countRnd_outcome : s.countRnd.outcome = s.outcome := rfl
@[simp] theorem countRnd_soundZero : s.countRnd.soundZero = s.soundZero := rfl
@[simp] theorem countRnd_agenda : s.countRnd.agenda = s.agenda := rfl
@[simp] theorem countRnd_rnd : s.countRnd.rnd = s.rnd := rfl
@[simp] theorem countRnd_rndCount : s.countRnd.rndCount = s.rndCount + 1 := rfl

/-! `setScreen` -/

@[simp] theorem setScreen_v (f : Framebuffer) : (s.setScreen f).v = s.v := rfl
@[simp] theorem setScreen_i (f : Framebuffer) : (s.setScreen f).i = s.i := rfl
@[simp] theorem setScreen_pc (f : Framebuffer) : (s.setScreen f).pc = s.pc := rfl
@[simp] theorem setScreen_stack (f : Framebuffer) : (s.setScreen f).stack = s.stack := rfl
@[simp] theorem setScreen_sp (f : Framebuffer) : (s.setScreen f).sp = s.sp := rfl
@[simp] theorem setScreen_dt (f : Framebuffer) : (s.setScreen f).dt = s.dt := rfl
@[simp] theorem setScreen_st (f : Framebuffer) : (s.setScreen f).st = s.st := rfl
@[simp] theorem setScreen_fb (f : Framebuffer) : (s.setScreen f).fb = f := rfl
@[simp] theorem setScreen_redraw (f : Framebuffer) : (s.setScreen f).redraw = true := rfl
@[simp] theorem setScreen_key (f : Framebuffer) : (s.setScreen f).key = s.key := rfl
@[simp] theorem setScreen_mem (f : Framebuffer) : (s.setScreen f).mem = s.mem := rfl
@[simp] theorem setScreen_outcome (f : Framebuffer) : (s.setScreen f).outcome = s.outcome := rfl
@[simp] theorem setScreen_soundZero (f : Framebuffer) : (s.setScreen f).soundZero = s.soundZero := rfl
@[simp] theorem setScreen_agenda (f : Framebuffer) : (s.setScreen f).agenda = s.agenda := rfl
@[simp] theorem setScreen_rnd (f : Framebuffer) : (s.setScreen f).rnd = s.rnd := rfl
@[simp] theorem setScreen_rndCount (f : Framebuffer) : (s.setScreen f).rndCount = s.rndCount := rfl

/-! `finishAt` -/

@[simp] theorem finishAt_v (w : Word) : (s.finishAt w).v = s.v := rfl
@[simp] theorem finishAt_i (w : Word) : (s.finishAt w).i = s.i := rfl
@[simp] theorem finishAt_pc (w : Word) : (s.finishAt w).pc = w := rfl
@[simp] theorem finishAt_stack (w : Word) : (s.finishAt w).stack = s.stack := rfl
@[simp] theorem finishAt_sp (w : Word) : (s.finishAt w).sp = s.sp := rfl
@[simp] theorem finishAt_dt (w : Word) : (s.finishAt w).dt = s.dt := rfl
@[simp] theorem finishAt_st (w : Word) : (s.finishAt w).st = s.st := rfl
@[simp] theorem finishAt_fb (w : Word) : (s.finishAt w).fb = s.fb := rfl
@[simp] theorem finishAt_redraw (w : Word) : (s.finishAt w).redraw = s.redraw := rfl
@[simp] theorem finishAt_key (w : Word) : (s.finishAt w).key = s.key := rfl
@[simp] theorem finishAt_mem (w : Word) : (s.finishAt w).mem = s.mem := rfl
@[simp] theorem finishAt_outcome (w : Word) : (s.finishAt w).outcome = .ok := rfl
@[simp] theorem finishAt_soundZero (w : Word) : (s.finishAt w).soundZero = s.soundZero := rfl
@[simp] theorem finishAt_agenda (w : Word) : (s.finishAt w).agenda = s.agenda := rfl
@[simp] theorem finishAt_rnd (w : Word) : (s.finishAt w).rnd = s.rnd := rfl
@[simp] theorem finishAt_rndCount (w : Word) : (s.finishAt w).rndCount = s.rndCount := rfl

/-! `recordFault` -/

@[simp] theorem recordFault_v (k : Fault) : (s.recordFault k).v = s.v := rfl
@[simp] theorem recordFault_i (k : Fault) : (s.recordFault k).i = s.i := rfl
@[simp] theorem recordFault_pc (k : Fault) : (s.recordFault k).pc = s.pc := rfl
@[simp] theorem recordFault_stack (k : Fault) : (s.recordFault k).stack = s.stack := rfl
@[simp] theorem recordFault_sp (k : Fault) : (s.recordFault k).sp = s.sp := rfl
@[simp] theorem recordFault_dt (k : Fault) : (s.recordFault k).dt = s.dt := rfl
@[simp] theorem recordFault_st (k : Fault) : (s.recordFault k).st = s.st := rfl
@[simp] theorem recordFault_fb (k : Fault) : (s.recordFault k).fb = s.fb := rfl
@[simp] theorem recordFault_redraw (k : Fault) : (s.recordFault k).redraw = s.redraw := rfl
@[simp] theorem recordFault_key (k : Fault) : (s.recordFault k).key = s.key := rfl
@[simp] theorem recordFault_mem (k : Fault) : (s.recordFault k).mem = s.mem := rfl
@[simp] theorem recordFault_outcome (k : Fault) : (s.recordFault k).outcome = .fault k := rfl
@[simp] theorem recordFault_soundZero (k : Fault) : (s.recordFault k).soundZero = s.soundZero := rfl
@[simp] theorem recordFault_agenda (k : Fault) : (s.recordFault k).agenda = s.agenda := rfl
@[simp] theorem recordFault_rnd (k : Fault) : (s.recordFault k).rnd = s.rnd := rfl
@[simp] theorem recordFault_rndCount (k : Fault) : (s.recordFault k).rndCount = s.rndCount := rfl

/-! `beginStep` -/

@[simp] theorem beginStep_v (r : Option Byte) : (s.beginStep r).v = s.v := rfl
@[simp] theorem beginStep_i (r : Option Byte) : (s.beginStep r).i = s.i := rfl
@[simp] theorem beginStep_pc (r : Option Byte) : (s.beginStep r).pc = s.pc := rfl
@[simp] theorem beginStep_stack (r : Option Byte) : (s.beginStep r).stack = s.stack := rfl
@[simp] theorem beginStep_sp (r : Option Byte) : (s.beginStep r).sp = s.sp := rfl
@[simp] theorem beginStep_dt (r : Option Byte) : (s.beginStep r).dt = s.dt := rfl
@[simp] theorem beginStep_st (r : Option Byte) : (s.beginStep r).st = s.st := rfl
@[simp] theorem beginStep_fb (r : Option Byte) : (s.beginStep r).fb = s.fb := rfl
@[simp] theorem beginStep_redraw (r : Option Byte) : (s.beginStep r).redraw = s.redraw := rfl
@[simp] theorem beginStep_key (r : Option Byte) : (s.beginStep r).key = s.key := rfl
@[simp] theorem beginStep_mem (r : Option Byte) : (s.beginStep r).mem = s.mem := rfl
@[simp] theorem beginStep_outcome (r : Option Byte) : (s.beginStep r).outcome = s.outcome := rfl
@[simp] theorem beginStep_soundZero (r : Option Byte) : (s.beginStep r).soundZero = s.soundZero := rfl
@[simp] theorem beginStep_agenda (r : Option Byte) : (s.beginStep r).agenda = s.agenda := rfl
@[simp] theorem beginStep_rnd (r : Option Byte) : (s.beginStep r).rnd = r := rfl
@[simp] theorem beginStep_rndCount (r : Option Byte) : (s.beginStep r).rndCount = s.rndCount := rfl

/-! `withAgenda` -/

@[simp] theorem withAgenda_v (l : List Event) : (s.withAgenda l).v = s.v := rfl
@[simp] theorem withAgenda_i (l : List Event) : (s.withAgenda l).i = s.i := rfl
@[simp] theorem withAgenda_pc (l : List Event) : (s.withAgenda l).pc = s.pc := rfl
@[simp] theorem withAgenda_stack (l : List Event) : (s.withAgenda l).stack = s.stack := rfl
@[simp] theorem withAgenda_sp (l : List Event) : (s.withAgenda l).sp = s.sp := rfl
@[simp] theorem withAgenda_dt (l : List Event) : (s.withAgenda l).dt = s.dt := rfl
@[simp] theorem withAgenda_st (l : List Event) : (s.withAgenda l).st = s.st := rfl
@[simp] theorem withAgenda_fb (l : List Event) : (s.withAgenda l).fb = s.fb := rfl
@[simp] theorem withAgenda_redraw (l : List Event) : (s.withAgenda l).redraw = s.redraw := rfl
@[simp] theorem withAgenda_key (l : List Event) : (s.withAgenda l).key = s.key := rfl
@[simp] theorem withAgenda_mem (l : List Event) : (s.withAgenda l).mem = s.mem := rfl
@[simp] theorem withAgenda_outcome (l : List Event) : (s.withAgenda l).outcome = s.outcome := rfl
@[simp] theorem withAgenda_soundZero (l : List Event) : (s.withAgenda l).soundZero = s.soundZero := rfl
@[simp] theorem withAgenda_agenda (l : List Event) : (s.withAgenda l).agenda = l := rfl
@[simp] theorem withAgenda_rnd (l : List Event) : (s.withAgenda l).rnd = s.rnd := rfl
@[simp] theorem withAgenda_rndCount (l : List Event) : (s.withAgenda l).rndCount = s.rndCount := rfl

/-! `tick` -/

@[simp] theorem tick_v : s.tick.v = s.v := rfl
@[simp] theorem tick_i : s.tick.i = s.i := rfl
@[simp] theorem tick_pc : s.tick.pc = s.pc := rfl
@[simp] theorem tick_stack : s.tick.stack = s.stack := rfl
@[simp] theorem tick_sp : s.tick.sp = s.sp := rfl
@[simp] theorem tick_dt : s.tick.dt = countDown s.dt := rfl
@[simp] theorem tick_st : s.tick.st = countDown s.st := rfl
@[simp] theorem tick_fb : s.tick.fb = s.fb := rfl
@[simp] theorem tick_redraw : s.tick.redraw = s.redraw := rfl
@[simp] theorem tick_key : s.tick.key = s.key := rfl
@[simp] theorem tick_mem : s.tick.mem = s.mem := rfl
@[simp] theorem tick_outcome : s.tick.outcome = s.outcome := rfl
@[simp] theorem tick_soundZero : s.tick.soundZero = (s.st == 1) := rfl
@[simp] theorem tick_agenda : s.tick.agenda = s.agenda := rfl
@[simp] theorem tick_rnd : s.tick.rnd = s.rnd := rfl
@[simp] theorem tick_rndCount : s.tick.rndCount = s.rndCount := rfl

/-! `setKey` -/

@[simp] theorem setKey_v (k : Fin 16) (d : Bool) : (s.setKey k d).v = s.v := rfl
@[simp] theorem setKey_i (k : Fin 16) (d : Bool) : (s.setKey k d).i = s.i := rfl
@[simp] theorem setKey_pc (k : Fin 16) (d : Bool) : (s.setKey k d).pc = s.pc := rfl
@[simp] theorem setKey_stack (k : Fin 16) (d : Bool) : (s.setKey k d).stack = s.stack := rfl
@[simp] theorem setKey_sp (k : Fin 16) (d : Bool) : (s.setKey k d).sp = s.sp := rfl
@[simp] theorem setKey_dt (k : Fin 16) (d : Bool) : (s.setKey k d).dt = s.dt := rfl
@[simp] theorem setKey_st (k : Fin 16) (d : Bool) : (s.setKey k d).st = s.st := rfl
@[simp] theorem setKey_fb (k : Fin 16) (d : Bool) : (s.setKey k d).fb = s.fb := rfl
@[simp] theorem setKey_redraw (k : Fin 16) (d : Bool) : (s.setKey k d).redraw = s.redraw := rfl
@[simp] theorem setKey_key (k : Fin 16) (d : Bool) : (s.setKey k d).key = s.key.set k d := rfl
@[simp] theorem setKey_mem (k : Fin 16) (d : Bool) : (s.setKey k d).mem = s.mem := rfl
@[simp] theorem setKey_outcome (k : Fin 16) (d : Bool) : (s.setKey k d).outcome = s.outcome := rfl
@[simp] theorem setKey_soundZero (k : Fin 16) (d : Bool) : (s.setKey k d).soundZero = s.soundZero := rfl
@[simp] theorem setKey_agenda (k : Fin 16) (d : Bool) : (s.setKey k d).agenda = s.agenda := rfl
@[simp] theorem setKey_rnd (k : Fin 16) (d : Bool) : (s.setKey k d).rnd = s.rnd := rfl
@[simp] theorem setKey_rndCount (k : Fin 16) (d : Bool) : (s.setKey k d).rndCount = s.rndCount := rfl

/-! `clearRedraw` -/

@[simp] theorem clearRedraw_v : s.clearRedraw.v = s.v := rfl
@[simp] theorem clearRedraw_i : s.clearRedraw.i = s.i := rfl
@[simp] theorem clearRedraw_pc : s.clearRedraw.pc = s.pc := rfl
@[simp] theorem clearRedraw_stack : s.clearRedraw.stack = s.stack := rfl
@[simp] theorem clearRedraw_sp : s.clearRedraw.sp = s.sp := rfl
@[simp] theorem clearRedraw_dt : s.clearRedraw.dt = s.dt := rfl
@[simp] theorem clearRedraw_st : s.clearRedraw.st = s.st := rfl
@[simp] theorem clearRedraw_fb : s.clearRedraw.fb = s.fb := rfl
@[simp] theorem clearRedraw_redraw : s.clearRedraw.redraw = false := rfl
@[simp] theorem clearRedraw_key : s.clearRedraw.key = s.key := rfl
@[simp] theorem clearRedraw_mem : s.clearRedraw.mem = s.mem := rfl
@[simp] theorem clearRedraw_outcome : s.clearRedraw.outcome = s.outcome := rfl
@[simp] theorem clearRedraw_soundZero : s.clearRedraw.soundZero = s.soundZero := rfl
@[simp] theorem clearRedraw_agenda : s.clearRedraw.agenda = s.agenda := rfl
@[simp] theorem clearRedraw_rnd : s.clearRedraw.rnd = s.rnd := rfl
@[simp] theorem clearRedraw_rndCount : s.clearRedraw.rndCount = s.rndCount := rfl

/-! `setResultFlag` -/

@[simp] theorem setResultFlag_i (x : Reg) (a b : Byte) : (s.setResultFlag x a b).i = s.i := rfl
@[simp] theorem setResultFlag_pc (x : Reg) (a b : Byte) : (s.setResultFlag x a b).pc = s.pc := rfl
@[simp] theorem setResultFlag_stack (x : Reg) (a b : Byte) : (s.setResultFlag x a b).stack = s.stack := rfl
@[simp] theorem setResultFlag_sp (x : Reg) (a b : Byte) : (s.setResultFlag x a b).sp = s.sp := rfl
@[simp] theorem setResultFlag_dt (x : Reg) (a b : Byte) : (s.setResultFlag x a b).dt = s.dt := rfl
@[simp] theorem setResultFlag_st (x : Reg) (a b : Byte) : (s.setResultFlag x a b).st = s.st := rfl
@[simp] theorem setResultFlag_fb (x : Reg) (a b : Byte) : (s.setResultFlag x a b).fb = s.fb := rfl
@[simp] theorem setResultFlag_redraw (x : Reg) (a b : Byte) : (s.setResultFlag x a b).redraw = s.redraw := rfl
@[simp] theorem setResultFlag_key (x : Reg) (a b : Byte) : (s.setResultFlag x a b).key = s.key := rfl
@[simp] theorem setResultFlag_mem (x : Reg) (a b : Byte) : (s.setResultFlag x a b).mem = s.mem := rfl
@[simp] theorem setResultFlag_outcome (x : Reg) (a b : Byte) : (s.setResultFlag x a b).outcome = s.outcome := rfl
@[simp] theorem setResultFlag_soundZero (x : Reg) (a b : Byte) : (s.setResultFlag x a b).soundZero = s.soundZero := rfl
@[simp] theorem setResultFlag_agenda (x : Reg) (a b : Byte) : (s.setResultFlag x a b).agenda = s.agenda := rfl
@[simp] theorem setResultFlag_rnd (x : Reg) (a b : Byte) : (s.setResultFlag x a b).rnd = s.rnd := rfl
@[simp] theorem setResultFlag_rndCount (x : Reg) (a b : Byte) : (s.setResultFlag x a b).rndCount = s.rndCount := rfl

/-! `keepSchedule` -/

@[simp] theorem keepSchedule_v (o : State) : (s.keepSchedule o).v = s.v := rfl
@[simp] theorem keepSchedule_i (o : State) : (s.keepSchedule o).i = s.i := rfl
@[simp] theorem keepSchedule_pc (o : State) : (s.keepSchedule o).pc = s.pc := rfl
@[simp] theorem keepSchedule_stack (o : State) : (s.keepSchedule o).stack = s.stack := rfl
@[simp] theorem keepSchedule_sp (o : State) : (s.keepSchedule o).sp = s.sp := rfl
@[simp] theorem keepSchedule_dt (o : State) : (s.keepSchedule o).dt = s.dt := rfl
@[simp] theorem keepSchedule_st (o : State) : (s.keepSchedule o).st = s.st := rfl
@[simp] theorem keepSchedule_fb (o : State) : (s.keepSchedule o).fb = s.fb := rfl
@[simp] theorem keepSchedule_redraw (o : State) : (s.keepSchedule o).redraw = s.redraw := rfl
@[simp] theorem keepSchedule_key (o : State) : (s.keepSchedule o).key = s.key := rfl
@[simp] theorem keepSchedule_mem (o : State) : (s.keepSchedule o).mem = s.mem := rfl
@[simp] theorem keepSchedule_outcome (o : State) : (s.keepSchedule o).outcome = s.outcome := rfl
@[simp] theorem keepSchedule_soundZero (o : State) : (s.keepSchedule o).soundZero = s.soundZero := rfl
@[simp] theorem keepSchedule_agenda (o : State) : (s.keepSchedule o).agenda = o.agenda := rfl
@[simp] theorem keepSchedule_rnd (o : State) : (s.keepSchedule o).rnd = o.rnd := rfl
@[simp] theorem keepSchedule_rndCount (o : State) : (s.keepSchedule o).rndCount = o.rndCount := rfl

/-! `loadRange` -/

@[simp] theorem loadRange_i (x : Reg) : (s.loadRange x).i = s.i := rfl
@[simp] theorem loadRange_pc (x : Reg) : (s.loadRange x).pc = s.pc := rfl
@[simp] theorem loadRange_stack (x : Reg) : (s.loadRange x).stack = s.stack := rfl
@[simp] theorem loadRange_sp (x : Reg) : (s.loadRange x).sp = s.sp := rfl
@[simp] theorem loadRange_dt (x : Reg) : (s.loadRange x).dt = s.dt := rfl
@[simp] theorem loadRange_st (x : Reg) : (s.loadRange x).st = s.st := rfl
@[simp] theorem loadRange_fb (x : Reg) : (s.loadRange x).fb = s.fb := rfl
@[simp] theorem loadRange_redraw (x : Reg) : (s.loadRange x).redraw = s.redraw := rfl
@[simp] theorem loadRange_key (x : Reg) : (s.loadRange x).key = s.key := rfl
@[simp] theorem loadRange_mem (x : Reg) : (s.loadRange x).mem = s.mem := rfl
@[simp] theorem loadRange_outcome (x : Reg) : (s.loadRange x).outcome = s.outcome := rfl
@[simp] theorem loadRange_soundZero (x : Reg) : (s.loadRange x).soundZero = s.soundZero := rfl
@[simp] theorem loadRange_agenda (x : Reg) : (s.loadRange x).agenda = s.agenda := rfl
@[simp] theorem loadRange_rnd (x : Reg) : (s.loadRange x).rnd = s.rnd := rfl
@[simp] theorem loadRange_rndCount (x : Reg) : (s.loadRange x).rndCount = s.rndCount := rfl

/-! Reading a register or a key after an update that writes another field -/

@[simp] theorem setI_getV (w : Word) (q : Reg) : (s.setI w).getV q = s.getV q := rfl
@[simp] theorem setDT_getV (b : Byte) (q : Reg) : (s.setDT b).getV q = s.getV q := rfl
@[simp] theorem setST_getV (b : Byte) (q : Reg) : (s.setST b).getV q = s.getV q := rfl
@[simp] theorem setMem_getV (m : Memory) (q : Reg) : (s.setMem m).getV q = s.getV q := rfl
@[simp] theorem countRnd_getV (q : Reg) : s.countRnd.getV q = s.getV q := rfl
@[simp] theorem setScreen_getV (f : Framebuffer) (q : Reg) : (s.setScreen f).getV q = s.getV q := rfl
@[simp] theorem finishAt_getV (w : Word) (q : Reg) : (s.finishAt w).getV q = s.getV q := rfl
@[simp] theorem recordFault_getV (k : Fault) (q : Reg) : (s.recordFault k).getV q = s.getV q := rfl
@[simp] theorem beginStep_getV (r : Option Byte) (q : Reg) : (s.beginStep r).getV q = s.getV q := rfl
@[simp] theorem withAgenda_getV (l : List Event) (q : Reg) : (s.withAgenda l).getV q = s.getV q := rfl
@[simp] theorem tick_getV (q : Reg) : s.tick.getV q = s.getV q := rfl
@[simp] theorem setKey_getV (k : Fin 16) (d : Bool) (q : Reg) : (s.setKey k d).getV q = s.getV q := rfl
@[simp] theorem clearRedraw_getV (q : Reg) : s.clearRedraw.getV q = s.getV q := rfl
@[simp] theorem keepSchedule_getV (o : State) (q : Reg) : (s.keepSchedule o).getV q = s.getV q := rfl
@[simp] theorem setV_keyDown (x : Reg) (b : Byte) (j : Fin 16) : (s.setV x b).keyDown j = s.keyDown j := rfl
@[simp] theorem setI_keyDown (w : Word) (j : Fin 16) : (s.setI w).keyDown j = s.keyDown j := rfl
@[simp] theorem setDT_keyDown (b : Byte) (j : Fin 16) : (s.setDT b).keyDown j = s.keyDown j := rfl
@[simp] theorem setST_keyDown (b : Byte) (j : Fin 16) : (s.setST b).keyDown j = s.keyDown j := rfl
@[simp] theorem setMem_keyDown (m : Memory) (j : Fin 16) : (s.setMem m).keyDown j = s.keyDown j := rfl
@[simp] theorem countRnd_keyDown (j : Fin 16) : s.countRnd.keyDown j = s.keyDown j := rfl
@[simp] theorem setScreen_keyDown (f : Framebuffer) (j : Fin 16) : (s.setScreen f).keyDown j = s.keyDown j := rfl
@[simp] theorem finishAt_keyDown (w : Word) (j : Fin 16) : (s.finishAt w).keyDown j = s.keyDown j := rfl
@[simp] theorem recordFault_keyDown (k : Fault) (j : Fin 16) : (s.recordFault k).keyDown j = s.keyDown j := rfl
@[simp] theorem beginStep_keyDown (r : Option Byte) (j : Fin 16) : (s.beginStep r).keyDown j = s.keyDown j := rfl
@[simp] theorem withAgenda_keyDown (l : List Event) (j : Fin 16) : (s.withAgenda l).keyDown j = s.keyDown j := rfl
@[simp] theorem tick_keyDown (j : Fin 16) : s.tick.keyDown j = s.keyDown j := rfl
@[simp] theorem clearRedraw_keyDown (j : Fin 16) : s.clearRedraw.keyDown j = s.keyDown j := rfl
@[simp] theorem setResultFlag_keyDown (x : Reg) (a b : Byte) (j : Fin 16) : (s.setResultFlag x a b).keyDown j = s.keyDown j := rfl
@[simp] theorem keepSchedule_keyDown (o : State) (j : Fin 16) : (s.keepSchedule o).keyDown j = s.keyDown j := rfl
@[simp] theorem loadRange_keyDown (x : Reg) (j : Fin 16) : (s.loadRange x).keyDown j = s.keyDown j := rfl

end Sys2Proof.Machine.State
end

