-- ==== Sys2Proof/Laws/Ops.lean ====
section
/-! SUPPORT. One lemma per shared operation that says all it can do: registers, the stack, completing a step, the bounds
check, the fetch, operand forms, the step engine. -/

namespace Sys2Proof.Machine

/-! ## Registers -/

theorem State.getV_setV (s : State) (x : Reg) (b : Byte) (r : Reg) :
    (s.setV x b).getV r = if r = x then b else s.getV r := by
  simp only [State.getV, State.setV, Fin.getElem_fin, Vector.getElem_set, Fin.ext_iff, eq_comm (a := x.val)]

@[simp] theorem State.getV_setV_self (s : State) (x : Reg) (b : Byte) : (s.setV x b).getV x = b := by
  rw [State.getV_setV, if_pos rfl]

theorem State.getV_setV_ne (s : State) {x r : Reg} (b : Byte) (h : r ≠ x) : (s.setV x b).getV r = s.getV r := by
  rw [State.getV_setV, if_neg h]

/-- The flag write wins over the result where both go to VF (R12). -/
theorem State.getV_setResultFlag (s : State) (x : Reg) (result flag : Byte) (r : Reg) :
    (s.setResultFlag x result flag).getV r = if r = vf then flag else if r = x then result else s.getV r := by
  simp only [State.setResultFlag, State.getV_setV]

theorem State.getV_loadRange (s : State) (x r : Reg) :
    (s.loadRange x).getV r = if r ≤ x then s.mem.read (s.i.toNat + r.val) else s.getV r := by
  simp [State.getV, State.loadRange, State.effectiveAddress]

theorem State.length_regRange (s : State) (x : Reg) : (s.regRange x).length = x.val + 1 := by
  have := x.isLt
  simp [State.regRange]

theorem State.getD_regRange (s : State) {x r : Reg} (h : r ≤ x) : (s.regRange x).getD r.val 0 = s.getV r := by
  have h' : r.val < x.val + 1 := Nat.lt_succ_of_le h
  have hr := r.isLt
  simp [State.regRange, List.getD_eq_getElem?_getD, h', State.getV]

theorem State.keyDown_setKey (s : State) (k : Fin 16) (d : Bool) (j : Fin 16) :
    (s.setKey k d).keyDown j = if j = k then d else s.keyDown j := by
  simp only [State.keyDown, State.setKey, Fin.getElem_fin, Vector.getElem_set, Fin.ext_iff, eq_comm (a := k.val)]

/-! ## The stack -/

theorem State.push_some {s t : State} {w : Word} :
    s.push w = some t ↔ ∃ h : s.sp.val < 16,
      t = { s with stack := s.stack.set s.sp.val w, sp := ⟨s.sp.val + 1, by omega⟩ } := by
  unfold State.push
  split
  · next h => simp only [Option.some.injEq]; exact ⟨fun e => ⟨h, e.symm⟩, fun ⟨_, e⟩ => e.symm⟩
  · next h => simp [h]

theorem State.push_none {s : State} {w : Word} : s.push w = none ↔ s.sp.val = 16 := by
  have := s.sp.isLt
  unfold State.push
  split <;> simp <;> omega

theorem State.pop_some {s t : State} {w : Word} :
    s.pop = some (w, t) ↔ ∃ h : 0 < s.sp.val,
      w = s.stack[s.sp.val - 1] ∧ t = { s with sp := ⟨s.sp.val - 1, by omega⟩ } := by
  unfold State.pop
  split
  · next h =>
    simp only [Option.some.injEq, Prod.mk.injEq]
    exact ⟨fun ⟨a, b⟩ => ⟨h, a.symm, b.symm⟩, fun ⟨_, a, b⟩ => ⟨a.symm, b.symm⟩⟩
  · next h => simp [h]

theorem State.pop_none {s : State} : s.pop = none ↔ s.sp.val = 0 := by
  unfold State.pop
  split <;> simp <;> omega

/-! ## Completing a step -/

theorem completeAt_eq (s : State) (w : Word) : completeAt s w = .next (s.finishAt w) := rfl

theorem completeNext_eq (s : State) : completeNext s = .next (s.finishAt (s.pc + 2)) := rfl

theorem completeSkip_eq (s : State) (c : Bool) :
    completeSkip s c = .next (s.finishAt (if c then s.pc + 4 else s.pc + 2)) := rfl

/-- The bounds check of an access (R32). -/
theorem outOfBounds_eq_true {base count : Nat} :
    outOfBounds base count = true ↔ 1 ≤ count ∧ 4096 ≤ base + (count - 1) := by
  unfold outOfBounds; rw [Bool.and_eq_true, decide_eq_true_iff, decide_eq_true_iff]; rfl

theorem outOfBounds_eq_false {base count : Nat} :
    outOfBounds base count = false ↔ count = 0 ∨ base + count ≤ 4096 := by
  rw [← Bool.not_eq_true, outOfBounds_eq_true]; omega

/-- What an access at `I` can do, said once: in bounds it is the instruction's own result. -/
theorem accessAtI_in {s : State} {count : Nat} (r : Result) (h : count = 0 ∨ s.i.toNat + count ≤ 4096) :
    accessAtI s count r = r := by
  have : outOfBounds (s.effectiveAddress 0) count = false := outOfBounds_eq_false.2 h
  simp only [accessAtI, this]

/-- Out of bounds it is the fault. -/
theorem accessAtI_out {s : State} {count : Nat} (r : Result) (h1 : 1 ≤ count) (h2 : 4096 < s.i.toNat + count) :
    accessAtI s count r = .fault .oobMemory := by
  have : outOfBounds (s.effectiveAddress 0) count = true :=
    outOfBounds_eq_true.2 ⟨h1, by simp only [State.effectiveAddress]; omega⟩
  simp only [accessAtI, this, raiseFault]

theorem accessAtI_next {s t : State} {count : Nat} {r : Result} :
    accessAtI s count r = .next t ↔ (count = 0 ∨ s.i.toNat + count ≤ 4096) ∧ r = .next t := by
  by_cases h : count = 0 ∨ s.i.toNat + count ≤ 4096
  · rw [accessAtI_in r h]; simp [h]
  · rw [accessAtI_out r (by omega) (by omega)]; simp [h]

/-! ## The fetch (R62) -/

theorem fetch_error {s : State} {k : Fault} : fetch s = .error k ↔ 4095 ≤ s.pc.toNat ∧ k = .oobMemory := by
  unfold fetch
  by_cases h : Config.memSize ≤ s.pc.toNat + 1
  · rw [if_pos h]
    simp only [Config.memSize] at h
    constructor
    · intro e; cases e; exact ⟨by omega, rfl⟩
    · rintro ⟨_, rfl⟩; rfl
  · rw [if_neg h]
    simp only [Config.memSize] at h
    simp; omega

theorem fetch_ok {s : State} {w : Word} :
    fetch s = .ok w ↔ s.pc.toNat < 4095 ∧ w = s.mem.read s.pc.toNat ++ s.mem.read (s.pc.toNat + 1) := by
  unfold fetch
  by_cases h : Config.memSize ≤ s.pc.toNat + 1
  · rw [if_pos h]
    simp only [Config.memSize] at h
    simp; omega
  · rw [if_neg h]
    simp only [Config.memSize] at h
    simp only [Except.ok.injEq]
    exact ⟨fun e => ⟨by omega, e.symm⟩, fun e => e.2.symm⟩

/-- The fetch depends on `pc` and memory alone. -/
theorem fetch_congr {s t : State} (hpc : t.pc = s.pc) (hmem : t.mem = s.mem) : fetch t = fetch s := by
  unfold fetch; rw [hpc, hmem]

/-! ## The step engine (R61) -/

theorem engineStep_decoded {s : State} {w : Word} {i : Instr} (hf : fetch s = .ok w) (hd : decodeWord w = .ok i) :
    engineStep s = exec i s := by
  simp only [engineStep, hf, hd]

theorem engineStep_unrecognized {s : State} {w : Word} {e : DecodeError} (hf : fetch s = .ok w)
    (hd : decodeWord w = .error e) : engineStep s = execUnrec w s := by
  simp only [engineStep, hf, hd]

theorem engineStep_fetch_fault {s : State} {k : Fault} (hf : fetch s = .error k) : engineStep s = .fault k := by
  simp only [engineStep, hf, raiseFault]

/-- What the step engine can answer, said once. -/
theorem engineStep_cases (s : State) :
    (∃ k, fetch s = .error k ∧ engineStep s = .fault k) ∨
    (∃ w i, fetch s = .ok w ∧ decodeWord w = .ok i ∧ engineStep s = exec i s) ∨
    (∃ w e, fetch s = .ok w ∧ decodeWord w = .error e ∧ engineStep s = execUnrec w s) := by
  cases hf : fetch s with
  | error k => exact .inl ⟨k, rfl, engineStep_fetch_fault hf⟩
  | ok w =>
    cases hd : decodeWord w with
    | ok i => exact .inr (.inl ⟨w, i, rfl, hd, engineStep_decoded hf hd⟩)
    | error e => exact .inr (.inr ⟨w, e, rfl, hd, engineStep_unrecognized hf hd⟩)

/-! ## Operand forms -/

theorem State.keyOperand_some {s : State} {x : Reg} {k : Fin 16} :
    s.keyOperand x = some k ↔ (s.getV x).toNat = k.val := by
  unfold State.keyOperand
  split
  · simp [Fin.ext_iff]
  · next h => simp; omega

theorem State.keyOperand_none {s : State} {x : Reg} : s.keyOperand x = none ↔ 15 < (s.getV x).toNat := by
  unfold State.keyOperand
  split <;> simp <;> omega

theorem State.keyPick_none {s : State} : s.keyPick = none ↔ ∀ k, s.keyDown k = false := by
  simp [State.keyPick, List.find?_eq_none]

/-- The picked key is down, and no lower one is (R127, D10). -/
theorem State.keyPick_some {s : State} {k : Fin 16} :
    s.keyPick = some k ↔ s.keyDown k = true ∧ ∀ j, j < k → s.keyDown j = false := by
  unfold State.keyPick
  rw [List.find?_eq_some_iff_getElem]
  constructor
  · rintro ⟨hk, n, hn, he, hlt⟩
    refine ⟨hk, fun j hj => ?_⟩
    have hnk : n = k.val := by simpa [Fin.ext_iff] using he
    have := hlt j.val (by omega)
    simpa using this
  · rintro ⟨hk, hlt⟩
    refine ⟨hk, k.val, by simp, by simp, fun j hj => ?_⟩
    have := hlt ⟨j, by omega⟩ (by simpa [Fin.lt_def] using hj)
    simpa using this

end Sys2Proof.Machine
end

