-- ==== Sys2Proof/Laws/Exec.lean ====
section
/-! SUPPORT. What an instruction that completes can have done, said once for all instructions: the outcome it reports and
the parts no instruction writes, what it may do to memory, to the stack and to `pc`. -/

namespace Sys2Proof.Machine

theorem result_next_inj {a b : State} (h : (Host.Outcome.next a : Result) = .next b) : b = a := by
  injection h with h; exact h.symm

/-- What every completed instruction leaves: outcome OK, the keys, the sound signal and the schedule as they were. -/
theorem exec_next_common {i : Instr} {s t : State} (h : exec i s = .next t) :
    t.outcome = .ok ∧ t.key = s.key ∧ t.soundZero = s.soundZero ∧ t.agenda = s.agenda ∧ t.rnd = s.rnd := by
  cases i
  case ret =>
    simp only [exec, execRet] at h
    cases hp : s.pop with
    | none => rw [hp] at h; cases h
    | some p =>
      obtain ⟨w, u⟩ := p
      rw [hp] at h
      obtain ⟨_, _, rfl⟩ := State.pop_some.1 hp
      obtain rfl := result_next_inj h
      exact ⟨rfl, rfl, rfl, rfl, rfl⟩
  case call nnn =>
    simp only [exec, execCall] at h
    cases hp : s.push s.pc with
    | none => rw [hp] at h; cases h
    | some u =>
      rw [hp] at h
      obtain ⟨_, rfl⟩ := State.push_some.1 hp
      obtain rfl := result_next_inj h
      exact ⟨rfl, rfl, rfl, rfl, rfl⟩
  case drw | bcd | stm | ldm =>
    simp only [exec, execDrw, execBcd, execStm, execLdm, completeNext_eq] at h
    obtain ⟨_, hn⟩ := accessAtI_next.1 h
    obtain rfl := result_next_inj hn
    simp
  case skp x | sknp x =>
    simp only [exec, execSkp, execSknp] at h
    cases hk : s.keyOperand x <;> rw [hk] at h
    · cases h
    · obtain rfl := result_next_inj h
      exact ⟨rfl, rfl, rfl, rfl, rfl⟩
  case wkey x =>
    simp only [exec, execWkey] at h
    cases hk : s.keyPick <;> rw [hk] at h <;> obtain rfl := result_next_inj h <;> exact ⟨rfl, rfl, rfl, rfl, rfl⟩
  all_goals
    obtain rfl := result_next_inj h
    exact ⟨rfl, rfl, rfl, rfl, rfl⟩

/-- Memory after a completed instruction: as before, or with bytes stored in bounds at `I`. -/
theorem exec_next_mem {i : Instr} {s t : State} (h : exec i s = .next t) :
    t.mem = s.mem ∨ ∃ bs, s.i.toNat + bs.length ≤ Config.memSize ∧ t.mem = s.mem.store s.i.toNat bs := by
  cases i
  case bcd x =>
    simp only [exec, execBcd] at h
    obtain ⟨hb, hn⟩ := accessAtI_next.1 h
    obtain rfl := result_next_inj hn
    exact .inr ⟨bcdDigits (s.getV x), by simp only [bcdDigits, List.length, Config.memSize]; omega, rfl⟩
  case stm x =>
    simp only [exec, execStm] at h
    obtain ⟨hb, hn⟩ := accessAtI_next.1 h
    obtain rfl := result_next_inj hn
    exact .inr ⟨s.regRange x, by rw [State.length_regRange, Config.memSize]; omega, rfl⟩
  case drw | ldm =>
    simp only [exec, execDrw, execLdm, completeNext_eq] at h
    obtain ⟨_, hn⟩ := accessAtI_next.1 h
    obtain rfl := result_next_inj hn
    exact .inl rfl
  case ret =>
    simp only [exec, execRet] at h
    cases hp : s.pop with
    | none => rw [hp] at h; cases h
    | some p =>
      obtain ⟨w, u⟩ := p
      rw [hp] at h
      obtain ⟨_, _, rfl⟩ := State.pop_some.1 hp
      obtain rfl := result_next_inj h
      exact .inl rfl
  case call nnn =>
    simp only [exec, execCall] at h
    cases hp : s.push s.pc with
    | none => rw [hp] at h; cases h
    | some u =>
      rw [hp] at h
      obtain ⟨_, rfl⟩ := State.push_some.1 hp
      obtain rfl := result_next_inj h
      exact .inl rfl
  case skp x | sknp x =>
    simp only [exec, execSkp, execSknp] at h
    cases hk : s.keyOperand x <;> rw [hk] at h
    · cases h
    · obtain rfl := result_next_inj h
      exact .inl rfl
  case wkey x =>
    simp only [exec, execWkey] at h
    cases hk : s.keyPick <;> rw [hk] at h <;> obtain rfl := result_next_inj h <;> exact .inl rfl
  all_goals
    obtain rfl := result_next_inj h
    exact .inl rfl

theorem absolute_toNat (nnn : Addr) : (absolute nnn).toNat = nnn.toNat := by
  have := nnn.isLt
  simp only [absolute, BitVec.truncate_eq_setWidth, BitVec.toNat_setWidth]
  exact Nat.mod_eq_of_lt (by omega)

theorem State.indexedTarget_toNat (s : State) (nnn : Addr) :
    (s.indexedTarget nnn).toNat = nnn.toNat + (s.getV 0).toNat := by
  have := nnn.isLt
  have := (s.getV 0).isLt
  simp only [State.indexedTarget, BitVec.toNat_add, absolute_toNat, BitVec.truncate_eq_setWidth, BitVec.toNat_setWidth]
  omega

/-- `pc` after a completed instruction: its own address, the one or the two instructions after it, a target of at most
0x10FE, or the address after a pushed one. -/
theorem exec_next_pc {i : Instr} {s t : State} (h : exec i s = .next t) :
    t.pc = s.pc ∨ t.pc = s.pc + 2 ∨ t.pc = s.pc + 4 ∨ t.pc.toNat ≤ 0x10FE ∨
      ∃ k : Fin 16, k.val < s.sp.val ∧ t.pc = s.stack[k] + 2 := by
  cases i
  case ret =>
    simp only [exec, execRet] at h
    cases hp : s.pop with
    | none => rw [hp] at h; cases h
    | some p =>
      obtain ⟨w, u⟩ := p
      rw [hp] at h
      obtain ⟨h0, rfl, rfl⟩ := State.pop_some.1 hp
      obtain rfl := result_next_inj h
      exact .inr (.inr (.inr (.inr ⟨⟨s.sp.val - 1, by have := s.sp.isLt; omega⟩, Nat.sub_lt h0 Nat.one_pos, rfl⟩)))
  case call nnn =>
    simp only [exec, execCall] at h
    cases hp : s.push s.pc with
    | none => rw [hp] at h; cases h
    | some u =>
      rw [hp] at h
      obtain rfl := result_next_inj h
      have := nnn.isLt
      exact .inr (.inr (.inr (.inl (by simp only [State.finishAt, absolute_toNat]; omega))))
  case jp nnn =>
    obtain rfl := result_next_inj h
    have := nnn.isLt
    exact .inr (.inr (.inr (.inl (by simp only [State.finishAt, absolute_toNat]; omega))))
  case jpv0 nnn =>
    obtain rfl := result_next_inj h
    have := nnn.isLt
    have := (s.getV 0).isLt
    exact .inr (.inr (.inr (.inl (by simp only [State.finishAt, State.indexedTarget_toNat]; omega))))
  case sei | snei | ser | sner =>
    obtain rfl := result_next_inj h
    simp only [State.finishAt]; split <;> simp
  case skp x | sknp x =>
    simp only [exec, execSkp, execSknp] at h
    cases hk : s.keyOperand x <;> rw [hk] at h
    · cases h
    · obtain rfl := result_next_inj h
      simp only [State.finishAt]; split <;> simp
  case wkey x =>
    simp only [exec, execWkey] at h
    cases hk : s.keyPick <;> rw [hk] at h <;> obtain rfl := result_next_inj h
    · exact .inl rfl
    · exact .inr (.inl rfl)
  case drw | bcd | stm | ldm =>
    simp only [exec, execDrw, execBcd, execStm, execLdm, completeNext_eq] at h
    obtain ⟨_, hn⟩ := accessAtI_next.1 h
    obtain rfl := result_next_inj hn
    exact .inr (.inl rfl)
  all_goals
    obtain rfl := result_next_inj h
    exact .inr (.inl rfl)

/-- The stack after a completed instruction: as before, with the instruction's own address pushed, or with one entry less
in use. -/
theorem exec_next_stack {i : Instr} {s t : State} (h : exec i s = .next t) :
    (t.stack = s.stack ∧ t.sp.val ≤ s.sp.val) ∨
      ∃ h16 : s.sp.val < 16, t.stack = s.stack.set s.sp.val s.pc ∧ t.sp.val = s.sp.val + 1 := by
  cases i
  case ret =>
    simp only [exec, execRet] at h
    cases hp : s.pop with
    | none => rw [hp] at h; cases h
    | some p =>
      obtain ⟨w, u⟩ := p
      rw [hp] at h
      obtain ⟨_, _, rfl⟩ := State.pop_some.1 hp
      obtain rfl := result_next_inj h
      exact .inl ⟨rfl, Nat.sub_le _ _⟩
  case call nnn =>
    simp only [exec, execCall] at h
    cases hp : s.push s.pc with
    | none => rw [hp] at h; cases h
    | some u =>
      rw [hp] at h
      obtain ⟨h16, rfl⟩ := State.push_some.1 hp
      obtain rfl := result_next_inj h
      exact .inr ⟨h16, rfl, rfl⟩
  case skp x | sknp x =>
    simp only [exec, execSkp, execSknp] at h
    cases hk : s.keyOperand x <;> rw [hk] at h
    · cases h
    · obtain rfl := result_next_inj h
      exact .inl ⟨rfl, Nat.le_refl _⟩
  case wkey x =>
    simp only [exec, execWkey] at h
    cases hk : s.keyPick <;> rw [hk] at h <;> obtain rfl := result_next_inj h <;> exact .inl ⟨rfl, Nat.le_refl _⟩
  case drw | bcd | stm | ldm =>
    simp only [exec, execDrw, execBcd, execStm, execLdm, completeNext_eq] at h
    obtain ⟨_, hn⟩ := accessAtI_next.1 h
    obtain rfl := result_next_inj hn
    exact .inl ⟨rfl, Nat.le_refl _⟩
  all_goals
    obtain rfl := result_next_inj h
    exact .inl ⟨rfl, Nat.le_refl _⟩

/-- The parts of the state that decide whether an instruction faults are the registers, `I` and `sp`. -/
theorem exec_fault_congr {i : Instr} {s u : State} {kind : Fault} (hv : ∀ x, u.getV x = s.getV x) (hi : u.i = s.i)
    (hsp : u.sp = s.sp) (h : exec i s = .fault kind) : exec i u = .fault kind := by
  have key : ∀ x, (u.keyOperand x) = s.keyOperand x := fun x => by
    unfold State.keyOperand
    simp only [hv]
  have acc : ∀ (n : Nat) (r q : Result) , accessAtI s n r = .fault kind → (∀ k, r ≠ .fault k) →
      accessAtI u n q = .fault kind := by
    intro n r q hr hne
    unfold accessAtI State.effectiveAddress at *
    rw [hi]
    cases hb : outOfBounds (s.i.toNat + 0) n with
    | true => rw [hb] at hr; exact hr
    | false => rw [hb] at hr; exact absurd hr (hne kind)
  cases i
  case ret =>
    simp only [exec, execRet] at h ⊢
    cases hp : s.pop with
    | none =>
      rw [hp] at h
      rw [State.pop_none.2 (by rw [hsp]; exact State.pop_none.1 hp)]; exact h
    | some p => rw [hp] at h; cases h
  case call nnn =>
    simp only [exec, execCall] at h ⊢
    cases hp : s.push s.pc with
    | none =>
      rw [hp] at h
      rw [State.push_none.2 (by rw [hsp]; exact State.push_none.1 hp)]; exact h
    | some p => rw [hp] at h; cases h
  case skp x | sknp x =>
    simp only [exec, execSkp, execSknp, key] at h ⊢
    cases hk : s.keyOperand x <;> rw [hk] at h
    · exact h
    · cases h
  case wkey x =>
    simp only [exec, execWkey] at h
    cases hk : s.keyPick <;> rw [hk] at h <;> cases h
  case drw | bcd | stm | ldm =>
    simp only [exec, execDrw, execBcd, execStm, execLdm] at h ⊢
    exact acc _ _ _ h (fun k e => by cases e)
  all_goals cases h

end Sys2Proof.Machine
end

