-- ==== Sys2Proof/Laws/Events.lean ====
section
/-! SUPPORT. What the host's events and the placing of an instruction do to memory, and what a run of the machine can be. -/

namespace Sys2Proof.Machine

theorem Memory.wf_zeroed : Memory.zeroed.wf := by
  apply Memory.wf_store Memory.wf_nil
  rw [List.length_replicate]
  decide

theorem Memory.read_zeroed (a : Nat) : Memory.zeroed.read a = 0 := by
  have hlen : fontTable.length = 80 := rfl
  rw [Memory.zeroed, Memory.read_store Memory.wf_nil (by rw [List.length_replicate]; decide)]
  split
  · next h =>
    rw [List.length_replicate] at h
    simp only [List.getD_eq_getElem?_getD, List.getElem?_replicate]
    split <;> rfl
  · next h =>
    rw [List.length_replicate] at h
    have : fontTable.length ≤ a := by omega
    simp [Memory.read_nil, unlisted, List.getD_eq_getElem?_getD, List.getElem?_eq_none this]

/-- When `initialize` answers a state, and which (R160, R161). -/
theorem initWith_some {font rom : List Byte} {t : State} :
    initWith font rom = some t ↔ rom.length ≤ Config.romMax ∧
      t = State.reset.setMem ((Memory.zeroed.store 0 font).store Config.progBase rom) := by
  unfold initWith
  by_cases h : Config.memSize < rom.length + Config.progBase
  · rw [if_pos h]
    have : ¬ rom.length ≤ Config.romMax := by
      simp only [Config.memSize, Config.progBase, Config.romMax] at *; omega
    simp [this]
  · rw [if_neg h]
    have : rom.length ≤ Config.romMax := by
      simp only [Config.memSize, Config.progBase, Config.romMax] at *; omega
    simp [this, eq_comm]

theorem initWith_none {font rom : List Byte} : initWith font rom = none ↔ Config.romMax < rom.length := by
  unfold initWith
  by_cases h : Config.memSize < rom.length + Config.progBase
  · rw [if_pos h]
    refine iff_of_true rfl ?_
    simp only [Config.memSize, Config.progBase, Config.romMax] at *; omega
  · rw [if_neg h]
    refine iff_of_false nofun ?_
    simp only [Config.memSize, Config.progBase, Config.romMax] at *; omega

/-- `initialize` leaves memory in its canonical form (log 18). -/
theorem initWith_wf {font rom : List Byte} {t : State} (hf : font.length ≤ Config.progBase)
    (h : initWith font rom = some t) : t.mem.wf := by
  obtain ⟨hr, rfl⟩ := initWith_some.1 h
  simp only [Config.progBase, Config.romMax] at hf hr
  refine Memory.wf_store (Memory.wf_store Memory.wf_zeroed ?_) ?_ <;>
    simp only [Config.memSize, Config.progBase] <;> omega

theorem initBlock_none {rom : List Byte} : initBlock rom = none ↔ Config.romMax < rom.length := by
  rw [initBlock, initWith_none]

theorem initBlock_some {rom : List Byte} {t : State} :
    initBlock rom = some t ↔ rom.length ≤ Config.romMax ∧
      t = State.reset.setMem ((Memory.zeroed.store 0 fontTable).store Config.progBase rom) := by
  rw [initBlock, initWith_some]

/-- A reset that does not fit keeps the state (R161). -/
theorem State.reinit_too_long (s : State) {rom : List Byte} (h : Config.romMax < rom.length) : s.reinit rom = s := by
  rw [State.reinit, initBlock_none.2 h, State.adopt]

/-- A reset that fits takes the new state over, with the model's own fields kept (R160): all it does, said once. -/
theorem State.reinit_fits (s : State) {rom : List Byte} (h : rom.length ≤ Config.romMax) :
    s.reinit rom =
      (State.reset.setMem ((Memory.zeroed.store 0 fontTable).store Config.progBase rom)).keepSchedule s := by
  rw [State.reinit, initBlock_some.2 ⟨h, rfl⟩, State.adopt]

/-- After a reset that fits memory is in its canonical form (log 18). -/
theorem State.reinit_wf (s : State) {rom : List Byte} (h : rom.length ≤ Config.romMax) : (s.reinit rom).mem.wf := by
  rw [State.reinit_fits s h, State.keepSchedule_mem]
  exact initWith_wf (font := fontTable) (Nat.le_of_ble_eq_true rfl) (initWith_some.2 ⟨h, rfl⟩)

/-- Placing an instruction keeps the canonical form (log 18). -/
theorem State.putWordAtPc_wf {s : State} (hm : s.mem.wf) (w : Word) : (s.putWordAtPc w).mem.wf := by
  unfold State.putWordAtPc
  split
  · exact hm
  · next h =>
    exact Memory.wf_write (Memory.wf_write hm (by omega) _) (by omega) _

/-- An instruction that completes keeps the canonical form (log 18). -/
theorem exec_next_wf {i : Instr} {s t : State} (hm : s.mem.wf) (h : exec i s = .next t) : t.mem.wf := by
  rcases exec_next_mem h with e | ⟨bs, hb, e⟩ <;> rw [e]
  · exact hm
  · exact Memory.wf_store hm hb

/-- The inversion of a step of the machine: which event it was, and what it answers. -/
theorem step_cases (s : State) :
    (s.agenda = [] ∧ step s = engineStep (s.beginStep none)) ∨
    ∃ e rest, s.agenda = e :: rest ∧
      ((∃ rnd, e = .step rnd ∧ step s = engineStep ((s.withAgenda rest).beginStep (some rnd))) ∨
       ((∀ rnd, e ≠ .step rnd) ∧ step s = .next ((s.withAgenda rest).afterEvent e))) := by
  cases ha : s.agenda with
  | nil => exact .inl ⟨rfl, by simp only [step, ha]⟩
  | cons e rest =>
    refine .inr ⟨e, rest, rfl, ?_⟩
    cases e
    case step rnd => exact .inl ⟨rnd, rfl, by simp only [step, ha]⟩
    all_goals exact .inr ⟨nofun, by simp only [step, ha, State.afterEvent]⟩

/-- What every step keeps, every run keeps: the induction over runs, once. -/
theorem run_keeps {M : Host.Core} {P : M.State → Prop} (hstep : ∀ s t, P s → M.step s = .next t → P t) :
    ∀ (n : Nat) (s t : M.State), P s → M.run n s = .next t → P t
  | 0, s, t, hs, h => by cases h; exact hs
  | n + 1, s, t, hs, h => by
    rw [Host.Core.run] at h
    cases he : M.step s with
    | next u => rw [he] at h; exact run_keeps hstep n u t (hstep s u hs he) h
    | fault r => rw [he] at h; cases h
    | refused r => rw [he] at h; cases h

end Sys2Proof.Machine
end

