-- ==== Sys2Proof/Laws/PerInstr.lean ====
section
/-! SUPPORT. Every instruction's word matches its own row of the opcode map (spec 30_encoding.md R50): one lemma per
constructor of Instr. -/

namespace Sys2Proof.Laws.RowMatch

/-- The word of `i` matches the row that bears its mnemonic. -/
def Statement (i : Instr) : Prop :=
  ∃ r ∈ opcodeRows, r.mnemonic = i.mnemonic ∧ encodeWord i &&& r.mask = r.pattern

theorem mask_nnn (op : Nibble) (nnn : Addr) : (op ++ nnn : Word) &&& 0xF000 = op ++ 0#12 := by
  rw [show (0xF000 : Word) = BitVec.allOnes 4 ++ 0#12 from rfl, BitVec.and_append, BitVec.and_allOnes, BitVec.and_zero]

theorem mask_xnn (op x : Nibble) (nn : Byte) : (op ++ x ++ nn : Word) &&& 0xF000 = op ++ 0#4 ++ 0#8 := by
  rw [show (0xF000 : Word) = BitVec.allOnes 4 ++ 0#4 ++ 0#8 from rfl, BitVec.and_append, BitVec.and_append,
    BitVec.and_allOnes, BitVec.and_zero, BitVec.and_zero]

theorem mask_xFF (op x : Nibble) (nn : Byte) : (op ++ x ++ nn : Word) &&& 0xF0FF = op ++ 0#4 ++ nn := by
  rw [show (0xF0FF : Word) = BitVec.allOnes 4 ++ 0#4 ++ BitVec.allOnes 8 from rfl, BitVec.and_append,
    BitVec.and_append, BitVec.and_allOnes, BitVec.and_zero, BitVec.and_allOnes]

theorem mask_xyn (op x y n : Nibble) : (op ++ x ++ y ++ n : Word) &&& 0xF00F = op ++ 0#4 ++ 0#4 ++ n := by
  rw [show (0xF00F : Word) = BitVec.allOnes 4 ++ 0#4 ++ 0#4 ++ BitVec.allOnes 4 from rfl, BitVec.and_append,
    BitVec.and_append, BitVec.and_append, BitVec.and_allOnes, BitVec.and_zero, BitVec.and_zero, BitVec.and_allOnes]

theorem mask_xyN (op x y n : Nibble) : (op ++ x ++ y ++ n : Word) &&& 0xF000 = op ++ 0#4 ++ 0#4 ++ 0#4 := by
  rw [show (0xF000 : Word) = BitVec.allOnes 4 ++ 0#4 ++ 0#4 ++ 0#4 from rfl, BitVec.and_append,
    BitVec.and_append, BitVec.and_append, BitVec.and_allOnes, BitVec.and_zero, BitVec.and_zero, BitVec.and_zero]

theorem cls : Statement .cls :=
  ⟨⟨"CLS", 0xFFFF, 0x00E0⟩, by decide, rfl, rfl⟩

theorem ret : Statement .ret :=
  ⟨⟨"RET", 0xFFFF, 0x00EE⟩, by decide, rfl, rfl⟩

theorem sys (nnn : Addr) : Statement (.sys nnn) :=
  ⟨⟨"SYS", 0xF000, 0x0000⟩, by decide, rfl, mask_nnn _ _⟩

theorem jp (nnn : Addr) : Statement (.jp nnn) :=
  ⟨⟨"JP", 0xF000, 0x1000⟩, by decide, rfl, mask_nnn _ _⟩

theorem call (nnn : Addr) : Statement (.call nnn) :=
  ⟨⟨"CALL", 0xF000, 0x2000⟩, by decide, rfl, mask_nnn _ _⟩

theorem sei (x : Reg) (nn : Byte) : Statement (.sei x nn) :=
  ⟨⟨"SEI", 0xF000, 0x3000⟩, by decide, rfl, mask_xnn _ _ _⟩

theorem snei (x : Reg) (nn : Byte) : Statement (.snei x nn) :=
  ⟨⟨"SNEI", 0xF000, 0x4000⟩, by decide, rfl, mask_xnn _ _ _⟩

theorem ser (x : Reg) (y : Reg) : Statement (.ser x y) :=
  ⟨⟨"SER", 0xF00F, 0x5000⟩, by decide, rfl, mask_xyn _ _ _ _⟩

theorem ldi (x : Reg) (nn : Byte) : Statement (.ldi x nn) :=
  ⟨⟨"LDI", 0xF000, 0x6000⟩, by decide, rfl, mask_xnn _ _ _⟩

theorem addi (x : Reg) (nn : Byte) : Statement (.addi x nn) :=
  ⟨⟨"ADDI", 0xF000, 0x7000⟩, by decide, rfl, mask_xnn _ _ _⟩

theorem mov (x : Reg) (y : Reg) : Statement (.mov x y) :=
  ⟨⟨"MOV", 0xF00F, 0x8000⟩, by decide, rfl, mask_xyn _ _ _ _⟩

theorem or (x : Reg) (y : Reg) : Statement (.or x y) :=
  ⟨⟨"OR", 0xF00F, 0x8001⟩, by decide, rfl, mask_xyn _ _ _ _⟩

theorem and (x : Reg) (y : Reg) : Statement (.and x y) :=
  ⟨⟨"AND", 0xF00F, 0x8002⟩, by decide, rfl, mask_xyn _ _ _ _⟩

theorem xor (x : Reg) (y : Reg) : Statement (.xor x y) :=
  ⟨⟨"XOR", 0xF00F, 0x8003⟩, by decide, rfl, mask_xyn _ _ _ _⟩

theorem add (x : Reg) (y : Reg) : Statement (.add x y) :=
  ⟨⟨"ADD", 0xF00F, 0x8004⟩, by decide, rfl, mask_xyn _ _ _ _⟩

theorem sub (x : Reg) (y : Reg) : Statement (.sub x y) :=
  ⟨⟨"SUB", 0xF00F, 0x8005⟩, by decide, rfl, mask_xyn _ _ _ _⟩

theorem shr (x : Reg) (y : Reg) : Statement (.shr x y) :=
  ⟨⟨"SHR", 0xF00F, 0x8006⟩, by decide, rfl, mask_xyn _ _ _ _⟩

theorem subn (x : Reg) (y : Reg) : Statement (.subn x y) :=
  ⟨⟨"SUBN", 0xF00F, 0x8007⟩, by decide, rfl, mask_xyn _ _ _ _⟩

theorem shl (x : Reg) (y : Reg) : Statement (.shl x y) :=
  ⟨⟨"SHL", 0xF00F, 0x800E⟩, by decide, rfl, mask_xyn _ _ _ _⟩

theorem sner (x : Reg) (y : Reg) : Statement (.sner x y) :=
  ⟨⟨"SNER", 0xF00F, 0x9000⟩, by decide, rfl, mask_xyn _ _ _ _⟩

theorem ldix (nnn : Addr) : Statement (.ldix nnn) :=
  ⟨⟨"LDIX", 0xF000, 0xA000⟩, by decide, rfl, mask_nnn _ _⟩

theorem jpv0 (nnn : Addr) : Statement (.jpv0 nnn) :=
  ⟨⟨"JPV0", 0xF000, 0xB000⟩, by decide, rfl, mask_nnn _ _⟩

theorem rnd (x : Reg) (nn : Byte) : Statement (.rnd x nn) :=
  ⟨⟨"RND", 0xF000, 0xC000⟩, by decide, rfl, mask_xnn _ _ _⟩

theorem drw (x : Reg) (y : Reg) (n : Fin 16) : Statement (.drw x y n) :=
  ⟨⟨"DRW", 0xF000, 0xD000⟩, by decide, rfl, mask_xyN _ _ _ _⟩

theorem skp (x : Reg) : Statement (.skp x) :=
  ⟨⟨"SKP", 0xF0FF, 0xE09E⟩, by decide, rfl, mask_xFF _ _ _⟩

theorem sknp (x : Reg) : Statement (.sknp x) :=
  ⟨⟨"SKNP", 0xF0FF, 0xE0A1⟩, by decide, rfl, mask_xFF _ _ _⟩

theorem rddt (x : Reg) : Statement (.rddt x) :=
  ⟨⟨"RDDT", 0xF0FF, 0xF007⟩, by decide, rfl, mask_xFF _ _ _⟩

theorem wkey (x : Reg) : Statement (.wkey x) :=
  ⟨⟨"WKEY", 0xF0FF, 0xF00A⟩, by decide, rfl, mask_xFF _ _ _⟩

theorem wrdt (x : Reg) : Statement (.wrdt x) :=
  ⟨⟨"WRDT", 0xF0FF, 0xF015⟩, by decide, rfl, mask_xFF _ _ _⟩

theorem wrst (x : Reg) : Statement (.wrst x) :=
  ⟨⟨"WRST", 0xF0FF, 0xF018⟩, by decide, rfl, mask_xFF _ _ _⟩

theorem addix (x : Reg) : Statement (.addix x) :=
  ⟨⟨"ADDIX", 0xF0FF, 0xF01E⟩, by decide, rfl, mask_xFF _ _ _⟩

theorem font (x : Reg) : Statement (.font x) :=
  ⟨⟨"FONT", 0xF0FF, 0xF029⟩, by decide, rfl, mask_xFF _ _ _⟩

theorem bcd (x : Reg) : Statement (.bcd x) :=
  ⟨⟨"BCD", 0xF0FF, 0xF033⟩, by decide, rfl, mask_xFF _ _ _⟩

theorem stm (x : Reg) : Statement (.stm x) :=
  ⟨⟨"STM", 0xF0FF, 0xF055⟩, by decide, rfl, mask_xFF _ _ _⟩

theorem ldm (x : Reg) : Statement (.ldm x) :=
  ⟨⟨"LDM", 0xF0FF, 0xF065⟩, by decide, rfl, mask_xFF _ _ _⟩

end Sys2Proof.Laws.RowMatch
end

