-- ==== Sys2Proof/Tests/Slice0.lean ====
section
/-! SUPPORT. Tests of one step each, with expected results from spec 95_test_vectors.md and the encodings of
30_encoding.md R50, and a witness for every statement that has hypotheses. -/

namespace Sys2Proof.Machine.Slice0Tests

set_option maxRecDepth 20000

/-! ## Well-formedness: the two addresses R53 keeps from SYS, and their neighbours -/

theorem test_wf_sys_0E0_refused :
    Instr.wellFormed (.sys 0x0E0) = false := by decide

theorem test_wf_sys_0EE_refused :
    Instr.wellFormed (.sys 0x0EE) = false := by decide

theorem test_wf_sys_neighbours_allowed :
    [0x0DF, 0x0E1, 0x0ED, 0x0EF, 0x1E0, 0x000].all (fun a => Instr.wellFormed (.sys a)) = true := by decide

/-! ## Decoding: words written out from the bit patterns of R50 (4 bits op, then the fields) -/

theorem test_decode_cls :
    decodeTableWord 16 0b0000000011100000 = some .cls := by decide

theorem test_decode_ret :
    decodeTableWord 16 0b0000000011101110 = some .ret := by decide

theorem test_decode_sys :
    decodeTableWord 16 0b0000000111100000 = some (.sys 0x1E0) := by decide

theorem test_decode_jp :
    decodeTableWord 16 0b0001001000110100 = some (.jp 0x234) := by decide

theorem test_decode_call :
    decodeTableWord 16 0b0010101010101011 = some (.call 0xAAB) := by decide

theorem test_decode_sei :
    decodeTableWord 16 0b0011001111110000 = some (.sei 3 0xF0) := by decide

theorem test_decode_snei :
    decodeTableWord 16 0b0100111000000001 = some (.snei 14 0x01) := by decide

theorem test_decode_ser :
    decodeTableWord 16 0b0101000111110000 = some (.ser 1 15) := by decide

theorem test_decode_ldi :
    decodeTableWord 16 0b0110101000101111 = some (.ldi 10 0x2F) := by decide

theorem test_decode_addi :
    decodeTableWord 16 0b0111000111111110 = some (.addi 1 0xFE) := by decide

theorem test_decode_mov :
    decodeTableWord 16 0b1000010100110000 = some (.mov 5 3) := by decide

theorem test_decode_or :
    decodeTableWord 16 0b1000010100110001 = some (.or 5 3) := by decide

theorem test_decode_and :
    decodeTableWord 16 0b1000010100110010 = some (.and 5 3) := by decide

theorem test_decode_xor :
    decodeTableWord 16 0b1000010100110011 = some (.xor 5 3) := by decide

theorem test_decode_add :
    decodeTableWord 16 0b1000010100110100 = some (.add 5 3) := by decide

theorem test_decode_sub :
    decodeTableWord 16 0b1000010100110101 = some (.sub 5 3) := by decide

theorem test_decode_shr :
    decodeTableWord 16 0b1000010100110110 = some (.shr 5 3) := by decide

theorem test_decode_subn :
    decodeTableWord 16 0b1000010100110111 = some (.subn 5 3) := by decide

theorem test_decode_shl :
    decodeTableWord 16 0b1000010100111110 = some (.shl 5 3) := by decide

theorem test_decode_sner :
    decodeTableWord 16 0b1001001001000000 = some (.sner 2 4) := by decide

theorem test_decode_ldix :
    decodeTableWord 16 0b1010001100000001 = some (.ldix 0x301) := by decide

theorem test_decode_jpv0 :
    decodeTableWord 16 0b1011111111111110 = some (.jpv0 0xFFE) := by decide

theorem test_decode_rnd :
    decodeTableWord 16 0b1100011010000001 = some (.rnd 6 0x81) := by decide

theorem test_decode_drw :
    decodeTableWord 16 0b1101000100101111 = some (.drw 1 2 15) := by decide

theorem test_decode_skp :
    decodeTableWord 16 0b1110010010011110 = some (.skp 4) := by decide

theorem test_decode_sknp :
    decodeTableWord 16 0b1110010010100001 = some (.sknp 4) := by decide

theorem test_decode_rddt :
    decodeTableWord 16 0b1111010100000111 = some (.rddt 5) := by decide

theorem test_decode_wkey :
    decodeTableWord 16 0b1111001000001010 = some (.wkey 2) := by decide

theorem test_decode_wrdt :
    decodeTableWord 16 0b1111110000010101 = some (.wrdt 12) := by decide

theorem test_decode_wrst :
    decodeTableWord 16 0b1111000100011000 = some (.wrst 1) := by decide

theorem test_decode_addix :
    decodeTableWord 16 0b1111001000011110 = some (.addix 2) := by decide

theorem test_decode_font :
    decodeTableWord 16 0b1111001100101001 = some (.font 3) := by decide

theorem test_decode_bcd :
    decodeTableWord 16 0b1111011100110011 = some (.bcd 7) := by decide

theorem test_decode_stm :
    decodeTableWord 16 0b1111111101010101 = some (.stm 15) := by decide

theorem test_decode_ldm :
    decodeTableWord 16 0b1111001001100101 = some (.ldm 2) := by decide

/-- Vectors U1 to U5. -/
theorem test_decode_unrecognized :
    [0x5121, 0x8008, 0x800F, 0x9001, 0xE000, 0xE09F, 0xF000, 0xF075, 0xFFFF].all
      (fun w => (decodeTableWord 16 w).isNone) = true := by decide

theorem test_decode_takes_two_bytes :
    (decode [0x00, 0xE0, 0x12]).toOption = some (.cls, [0x12]) ∧ (decode [0x12]).toOption = none := by decide

/-! ## Helpers -/

/-- The state one step after the word is placed at `pc` in a state. -/
def ran (w : Nat) (s : State) : Option State :=
  match step (s.withFetchWord 16 w) with
  | .next t => some t
  | .fault _ => none
  | .refused _ => none

/-- The fault of one step with the word placed at `pc` in a state. -/
def faultOf (w : Nat) (s : State) : Option Fault :=
  match step (s.withFetchWord 16 w) with
  | .next _ => none
  | .fault kind => some kind
  | .refused _ => none

/-- The reset state with some registers set. -/
def withRegs : List (Reg × Byte) → State
  | [] => State.reset
  | (x, b) :: rest => (withRegs rest).setV x b

/-- The values of some registers, then VF, then `pc`, after a word runs on a state. -/
def regsAfter (w : Nat) (s : State) (xs : List Reg) : Option (List Byte × Word) :=
  (ran w s).map fun t => ((xs ++ [15]).map t.getV, t.pc)

/-- A state at another `pc`. -/
def atPc (pc : Word) (s : State) : State := s.finishAt pc

/-- A framebuffer with exactly these pixels set, and the same read off a framebuffer. -/
def pixels (l : List Pixel) : Framebuffer := (drawPixels l (Framebuffer.clear, false)).1

/-! ## Control flow (95_test_vectors.md section 2.1; the vector's name stands in the docstring) -/

/-- D1. -/
theorem test_cls :
    (ran 0x00E0 ((State.reset.setScreen (pixels [(3, 4)])).clearRedraw)).map (fun t => (t.fb, t.redraw, t.pc)) =
      some (Framebuffer.clear, true, 0x0202) := by decide

/-- D2. -/
theorem test_cls_of_clear :
    (ran 0x00E0 State.reset).map (fun t => (t.fb, t.redraw)) = some (Framebuffer.clear, true) := by decide

/-- C1. -/
theorem test_jp :
    (ran 0x1234 State.reset).map (·.pc) = some 0x0234 := by decide

/-- C3. -/
theorem test_jpv0 :
    (ran 0xB300 (withRegs [(0, 0x04)])).map (·.pc) = some 0x0304 := by decide

/-- C4: the jump completes and the next step faults. -/
theorem test_jpv0_past_memory :
    (ran 0xBFFF (withRegs [(0, 0xFF)])).map (fun t => (t.pc, step t)) = some (0x10FE, .fault .oobMemory) := by rfl

/-- C5. -/
theorem test_call :
    (ran 0x220A State.reset).map (fun t => (t.stack[0], t.sp.val, t.pc)) = some (0x0200, 1, 0x020A) := by decide

/-- C6. -/
theorem test_call_overflow :
    faultOf 0x220A { State.reset with sp := 16 } = some .stackOverflow := by decide

/-- C7. -/
theorem test_ret :
    (ran 0x00EE (atPc 0x020E { State.reset with sp := 1, stack := State.reset.stack.set 0 0x0202 })).map
      (fun t => (t.stack[0], t.sp.val, t.pc)) = some (0x0202, 0, 0x0204) := by decide

/-- C8. -/
theorem test_ret_underflow :
    faultOf 0x00EE State.reset = some .stackUnderflow := by decide

/-- C9 to C11. -/
theorem test_sys :
    [0x0000, 0x01E0, 0x00E1, 0x00EF].map (fun w => (ran w State.reset).map (fun t => (t.pc, t.outcome))) =
      List.replicate 4 (some (0x0202, .ok)) := by decide

/-- C12, C13. -/
theorem test_sei :
    (ran 0x3100 (withRegs [(1, 0x00)])).map (·.pc) = some 0x0204 ∧
      (ran 0x3100 (withRegs [(1, 0x04)])).map (·.pc) = some 0x0202 := by decide

/-- C15, C16. -/
theorem test_snei :
    (ran 0x4211 (withRegs [(2, 0x10)])).map (·.pc) = some 0x0204 ∧
      (ran 0x4210 (withRegs [(2, 0x10)])).map (·.pc) = some 0x0202 := by decide

/-- C17, C18. -/
theorem test_ser :
    (ran 0x5340 (withRegs [(3, 7), (4, 7)])).map (·.pc) = some 0x0204 ∧
      (ran 0x5340 (withRegs [(3, 7), (4, 8)])).map (·.pc) = some 0x0202 := by decide

/-- C20, C21. -/
theorem test_sner :
    (ran 0x9340 (withRegs [(3, 7), (4, 8)])).map (·.pc) = some 0x0204 ∧
      (ran 0x9340 (withRegs [(3, 7), (4, 7)])).map (·.pc) = some 0x0202 := by decide

/-! ## The fetch (section 2.2) -/

/-- F1. -/
theorem test_fetch_at_end :
    (ran 0x6A01 (atPc 0x0FFE State.reset)).map (fun t => (t.getV 0xA, t.pc, step t)) = some (0x01, 0x1000, .fault .oobMemory) := by rfl

/-- F2. -/
theorem test_fetch_past_end :
    step (atPc 0x0FFF State.reset) = .fault .oobMemory := by rfl

/-- F4. -/
theorem test_fetch_odd_pc :
    (ran 0x6B07 (atPc 0x0201 State.reset)).map (fun t => (t.getV 0xB, t.pc)) = some (0x07, 0x0203) := by decide

/-- U1. -/
theorem test_unrecognized_step :
    (ran 0x5121 State.reset).map (fun t => (t.pc, t.outcome)) = some (0x0202, .unrecognized 0x5121) := by decide

/-! ## Loads and ALU (section 2.3): the operands, then V[1] and VF after -/

/-- A1, A2. -/
theorem test_add :
    regsAfter 0x8124 (withRegs [(1, 0xF0), (2, 0x20)]) [1] = some ([0x10, 1], 0x0202) ∧
      regsAfter 0x8124 (withRegs [(1, 0x0A), (2, 0x05), (15, 7)]) [1] = some ([0x0F, 0], 0x0202) := by decide

/-- A6, A8. -/
theorem test_sub :
    regsAfter 0x8125 (withRegs [(1, 0x05), (2, 0x0A)]) [1] = some ([0xFB, 0], 0x0202) ∧
      regsAfter 0x8125 (withRegs [(1, 0x07), (2, 0x07)]) [1] = some ([0x00, 1], 0x0202) := by decide

/-- A11, A12. -/
theorem test_subn :
    regsAfter 0x8127 (withRegs [(1, 0x05), (2, 0x0A)]) [1] = some ([0x05, 1], 0x0202) ∧
      regsAfter 0x8127 (withRegs [(1, 0x0A), (2, 0x05)]) [1] = some ([0xFB, 0], 0x0202) := by decide

/-- A14, A15. -/
theorem test_shr :
    regsAfter 0x8126 (withRegs [(1, 0x03), (2, 0x55)]) [1] = some ([0x01, 1], 0x0202) ∧
      regsAfter 0x8126 (withRegs [(1, 0x80)]) [1] = some ([0x40, 0], 0x0202) := by decide

/-- A18, A19. -/
theorem test_shl :
    regsAfter 0x812E (withRegs [(1, 0x81)]) [1] = some ([0x02, 1], 0x0202) ∧
      regsAfter 0x812E (withRegs [(1, 0x40)]) [1] = some ([0x80, 0], 0x0202) := by decide

/-- A30: the sum is lost under the carry. -/
theorem test_add_to_vf :
    regsAfter 0x8F14 (withRegs [(15, 0x10), (1, 0x20)]) [] = some ([0], 0x0202) := by decide

/-- A32. -/
theorem test_sub_to_vf :
    regsAfter 0x8F15 (withRegs [(15, 0x30), (1, 0x20)]) [] = some ([1], 0x0202) := by decide

/-- A33. -/
theorem test_subn_to_vf :
    regsAfter 0x8F17 (withRegs [(15, 0x10), (1, 0x20)]) [] = some ([1], 0x0202) := by decide

/-- A35. -/
theorem test_shr_to_vf :
    regsAfter 0x8F06 (withRegs [(15, 0x03)]) [] = some ([1], 0x0202) := by decide

/-- A37. -/
theorem test_shl_to_vf :
    regsAfter 0x8F0E (withRegs [(15, 0x80)]) [] = some ([1], 0x0202) := by decide

/-- A22. -/
theorem test_mov :
    regsAfter 0x8120 (withRegs [(1, 0x01), (2, 0x7C), (15, 5)]) [1] = some ([0x7C, 5], 0x0202) := by decide

/-- A23. -/
theorem test_or :
    regsAfter 0x8121 (withRegs [(1, 0xF0), (2, 0x0F), (15, 5)]) [1] = some ([0xFF, 5], 0x0202) := by decide

/-- A24. -/
theorem test_and :
    regsAfter 0x8122 (withRegs [(1, 0xF3), (2, 0x3C), (15, 5)]) [1] = some ([0x30, 5], 0x0202) := by decide

/-- A25. -/
theorem test_xor :
    regsAfter 0x8123 (withRegs [(1, 0xF3), (2, 0x3C), (15, 5)]) [1] = some ([0xCF, 5], 0x0202) := by decide

/-- A43. -/
theorem test_ldi :
    regsAfter 0x6A2F State.reset [0xA] = some ([0x2F, 0], 0x0202) := by decide

/-- A45. -/
theorem test_addi :
    regsAfter 0x7102 (withRegs [(1, 0xFF)]) [1] = some ([0x01, 0], 0x0202) := by decide

/-- A47, A48. -/
theorem test_rnd :
    (match step ((State.reset.putWordAtPc 0xC30F).withAgenda [.step 0xA7]) with | .next t => some (t.getV 3) | _ => none) = some 0x07 ∧
      (match step ((State.reset.putWordAtPc 0xC300).withAgenda [.step 0xFF]) with | .next t => some (t.getV 3) | _ => none) = some 0x00 := by decide

/-- RND completes whatever the free byte is (log 3). -/
theorem test_rnd_without_a_given_byte :
    (ran 0xC300 State.reset).map (fun t => (t.pc, t.rndCount)) = some (0x0202, 1) := by decide

/-! ## Index register and memory (section 2.4) -/

/-- M1. -/
theorem test_ldix :
    (ran 0xA300 State.reset).map (·.i) = some 0x0300 := by decide

/-- M2, M3. -/
theorem test_addix :
    (ran 0xF21E ((withRegs [(2, 0x01), (15, 0x55)]).setI 0x0FFF)).map (fun t => (t.i, t.getV 15)) = some (0x1000, 0x55) := by decide

/-- M5. -/
theorem test_addix_wraps :
    (ran 0xF21E ((withRegs [(2, 0xFF)]).setI 0xFF80)).map (·.i) = some 0x007F := by decide

/-- M6. -/
theorem test_font :
    [0x00, 0x0A, 0x0F, 0x10, 0xFF].map (fun b => (ran 0xF329 (withRegs [(3, b)])).map (·.i)) =
      [some 0x0000, some 0x0032, some 0x004B, some 0x0050, some 0x04FB] := by decide

/-- M7, M8. -/
theorem test_bcd :
    (ran 0xF033 ((withRegs [(0, 254)]).setI 0x0FFD)).map (fun t => [0xFFD, 0xFFE, 0xFFF].map t.mem.read) = some [2, 5, 4] := by decide

/-- M9. -/
theorem test_bcd_out_of_bounds :
    [0x0FFE, 0x0FFF, 0x1000, 0xFFFF].map (fun i => faultOf 0xF033 ((withRegs [(0, 255)]).setI i)) =
      List.replicate 4 (some .oobMemory) := by decide

/-- Program P5, fourth step. -/
theorem test_stm :
    (ran 0xF155 ((withRegs [(0, 0x62), (1, 0xAA), (2, 0x77)]).setI 0x0208)).map
      (fun t => ([0x208, 0x209, 0x20A].map t.mem.read, t.i)) = some ([0x62, 0xAA, 0], 0x0208) := by decide

/-- M12, M13, M11. -/
theorem test_stm_bounds :
    (ran 0xF055 ((withRegs [(0, 0x77)]).setI 0x0FFF)).map (·.mem.read 0xFFF) = some 0x77 ∧
      faultOf 0xF055 (State.reset.setI 0x1000) = some .oobMemory ∧ faultOf 0xFF55 (State.reset.setI 0x0FF1) = some .oobMemory := by decide

/-- Memory with some bytes stored at an address. -/
def withBytes (a : Nat) (bs : List Byte) (s : State) : State := s.setMem (s.mem.store a bs)

/-- M14. -/
theorem test_ldm :
    regsAfter 0xF265 (withBytes 0x300 [2, 5, 4, 9] ((withRegs [(3, 0xEE)]).setI 0x0300)) [0, 1, 2, 3] =
      some ([2, 5, 4, 0xEE, 0], 0x0202) := by decide

/-- M15, M16. -/
theorem test_ldm_bounds :
    (ran 0xF065 (withBytes 0xFFF [0x5A] (State.reset.setI 0x0FFF))).map (·.getV 0) = some 0x5A ∧
      faultOf 0xF165 (withBytes 0xFFF [0x5A] (State.reset.setI 0x0FFF)) = some .oobMemory := by decide

/-! ## Framebuffer (section 2.5) -/

/-- D10. -/
theorem test_drw_wraps :
    (ran 0xD121 (withBytes 0x300 [0xFF] ((withRegs [(1, 63), (2, 31)]).setI 0x0300))).map (fun t => (t.fb, t.getV 15, t.redraw)) =
      some (pixels [(31, 63), (31, 0), (31, 1), (31, 2), (31, 3), (31, 4), (31, 5), (31, 6)], 0, true) := by decide

/-- D4. -/
theorem test_drw_collision :
    (ran 0xD121 (withBytes 0x300 [0xC0] (State.reset.setI 0x0300) |>.setScreen (pixels [(0, 1), (0, 2)]))).map
      (fun t => (t.fb, t.getV 15)) = some (pixels [(0, 0), (0, 2)], 1) := by decide

/-! ## Keys and timers (section 2.6) -/

/-- K1, K2. -/
theorem test_skp :
    (ran 0xE49E (atPc 0x0220 ((withRegs [(4, 7)]).setKey 7 true))).map (·.pc) = some 0x0224 ∧
      (ran 0xE49E (atPc 0x0220 (withRegs [(4, 7)]))).map (·.pc) = some 0x0222 := by decide

/-- K4, K5. -/
theorem test_skp_index_fault :
    faultOf 0xE49E (withRegs [(4, 0x10)]) = some .keyIndex ∧
      faultOf 0xE49E ((withRegs [(4, 0xFF)]).setKey 15 true) = some .keyIndex := by decide

/-- K6, K7. -/
theorem test_sknp :
    (ran 0xE4A1 (atPc 0x0220 (withRegs [(4, 7)]))).map (·.pc) = some 0x0224 ∧
      (ran 0xE4A1 (atPc 0x0220 ((withRegs [(4, 7)]).setKey 7 true))).map (·.pc) = some 0x0222 := by decide

/-- K8. -/
theorem test_sknp_index_fault :
    faultOf 0xE4A1 (withRegs [(4, 16)]) = some .keyIndex := by decide

/-- K9: the whole state is unchanged. -/
theorem test_wkey_waits :
    ran 0xF20A (atPc 0x0230 (withRegs [(2, 0x44)])) = some ((atPc 0x0230 (withRegs [(2, 0x44)])).withFetchWord 16 0xF20A) := by decide

/-- K10. -/
theorem test_wkey :
    (ran 0xF20A (atPc 0x0230 (((withRegs [(2, 0x44)]).setKey 9 true).setKey 3 true))).map (fun t => (t.getV 2, t.pc)) =
      some (0x03, 0x0232) := by decide

/-- K11. -/
theorem test_rddt :
    (ran 0xF507 (State.reset.setDT 0x1E)).map (·.getV 5) = some 0x1E := by decide

/-- K12. -/
theorem test_wrdt :
    (ran 0xF015 (withRegs [(0, 3)])).map (·.dt) = some 3 := by decide

/-- K13. -/
theorem test_wrst :
    (ran 0xF118 (withRegs [(1, 0x3C)])).map (fun t => (t.st, t.soundZero)) = some (60, false) := by decide

/-- T1. -/
theorem test_tick :
    [1, 2, 3, 4].map (fun n => let t := (((State.reset.setDT 2).setST 3).afterEvents (List.replicate n .tick)); (t.dt, t.st, t.soundZero)) =
      [(1, 2, false), (0, 1, false), (0, 0, true), (0, 0, false)] := by decide

/-- S8. -/
theorem test_reset_too_long :
    initBlock (List.replicate 3585 0) = none := initBlock_none.2 (by rw [List.length_replicate]; decide)

/-- S8. -/
theorem test_reset_longest :
    ∃ t, initBlock (List.replicate 3584 0) = some t := ⟨_, initBlock_some.2 ⟨by rw [List.length_replicate]; decide, rfl⟩⟩

/-- R160: every state element is zeroed, then the rom written. -/
theorem test_reset_event_clears_the_old_state :
    (blockEvent (some (((withRegs [(1, 7)]).setKey 3 true).setST 5)) (.init [0x12, 0x00])).1.map
      (fun t => (t.getV 1, t.keyDown 3, t.st, t.mem.read 0x200)) = some (0, false, 0, 0x12) := by decide

/-- Decision D16. -/
theorem test_fault_code :
    [Fault.oobMemory, .stackOverflow, .stackUnderflow, .keyIndex].map faultCode = [1, 2, 3, 4] := by decide

/-! ## Witnesses: for every statement with hypotheses, concrete values that meet them, clause by clause at the boundaries -/

/-- A state that answers a next state for an instruction. -/
def completes (i : Instr) (s : State) : Bool :=
  match exec i s with
  | .next _ => true
  | .fault _ => false
  | .refused _ => false

/-- The fetched word of a state, and the instruction it decodes to. -/
def fetched (s : State) : Option Word := (fetch s).toOption

/-- The reset state with a word at `pc`. -/
def holding (w : Word) : State := State.reset.putWordAtPc w

theorem test_witness_SysOnlyAdvances :
    (0x0DF : Addr) ≠ 0x0E0 ∧ (0x0DF : Addr) ≠ 0x0EE ∧ (0xFFF : Addr) ≠ 0x0E0 ∧ (0xFFF : Addr) ≠ 0x0EE := by decide

theorem test_witness_CallPushesItsOwnAddress_room :
    (State.reset.sp.val = (0 : Fin 16).val) ∧ ({ State.reset with sp := 15 } : State).sp.val = (15 : Fin 16).val := by decide

theorem test_witness_CallPushesItsOwnAddress_full :
    ({ holding 0x2ABC with sp := 16 } : State).sp.val = 16 ∧ fetched { holding 0x2ABC with sp := 16 } = some 0x2ABC ∧
      (decodeWord 0x2ABC).toOption = some (.call 0xABC) := by decide

theorem test_witness_RetResumesAfterTheCall_entries :
    ({ State.reset with sp := 1 } : State).sp.val = (0 : Fin 16).val + 1 ∧ ({ State.reset with sp := 16 } : State).sp.val = (15 : Fin 16).val + 1 := by decide

theorem test_witness_RetResumesAfterTheCall_empty :
    (holding 0x00EE).sp.val = 0 ∧ fetched (holding 0x00EE) = some 0x00EE ∧ (decodeWord 0x00EE).toOption = some .ret := by decide

/-- Two registers apart from each other and from VF: the hypotheses on registers of AddiWrapsWithoutFlag, MovCopies,
LogicActsBitwise, AddSetsCarry, SubWrapsAndReportsBorrow, SubnWrapsAndReportsBorrow, ShrShiftsByOne, ShlShiftsByOne,
LdiLoadsTheImmediate, RndMasksTheGivenByte, WkeyWaitsForAKey, TimerTransfersMoveOneByte. -/
theorem test_witness_registers : (0 : Reg) ≠ 15 ∧ (14 : Reg) ≠ 0 ∧ (14 : Reg) ≠ 15 := by decide

theorem test_witness_SkipsOnRegisters :
    (1 : Nat) ≤ 1 ∧ 15 < 16 ∧ (1 : Nat) ≤ 15 := by decide

theorem test_witness_RndMasksTheGivenByte :
    (State.reset.beginStep (some 0xFF)).rnd = some 0xFF ∧ (0x0F : Byte).getLsbD 7 = false := by decide

theorem test_witness_BcdStoresThreeDigits :
    State.reset.mem.wf ∧ (State.reset.setI 0x0FFD).effectiveAddress 2 < 4096 ∧ 4096 ≤ (State.reset.setI 0x0FFE).effectiveAddress 2 := by decide

theorem test_witness_StmStoresTheRange :
    State.reset.mem.wf ∧ (State.reset.setI 0x0FF0).effectiveAddress (15 : Reg).val < 4096 ∧
      4096 ≤ (State.reset.setI 0x0FF1).effectiveAddress (15 : Reg).val ∧ (State.reset.setI 0x0FFF).effectiveAddress (0 : Reg).val < 4096 := by decide

theorem test_witness_LdmLoadsTheRange :
    (State.reset.setI 0x0FF0).effectiveAddress (15 : Reg).val < 4096 ∧ 4096 ≤ (State.reset.setI 0x0FF1).effectiveAddress (15 : Reg).val ∧
      (14 : Reg) < 15 := by decide

theorem test_witness_LdmReadsBackWhatStmStored :
    (State.reset.setI 0x0FF0).mem.wf ∧ completes (.stm 15) (State.reset.setI 0x0FF0) = true := by decide

theorem test_witness_StoreIsSeenByTheNextFetch :
    (atPc 4092 (State.reset.setI 4094)).mem.wf ∧ 1 ≤ (1 : Reg).val ∧ (atPc 4092 (State.reset.setI 4094)).i = (atPc 4092 (State.reset.setI 4094)).pc + 2 ∧
      (atPc 4092 (State.reset.setI 4094)).pc.toNat < 4093 ∧ completes (.stm 1) (atPc 4092 (State.reset.setI 4094)) = true := by decide

theorem test_witness_DrwFlipsThePixelsUnderTheSprite_bounds :
    ((0 : Fin 16).val = 0 ∨ (0xFFFF : Word).toNat + (0 : Fin 16).val ≤ 4096) ∧ (0x0FF1 : Word).toNat + (15 : Fin 16).val ≤ 4096 ∧
      1 ≤ (15 : Fin 16).val ∧ 4096 ≤ (0x0FF2 : Word).toNat + (15 : Fin 16).val - 1 := by decide

theorem test_witness_DrwFlipsThePixelsUnderTheSprite_covered :
    SpriteCovers (withBytes 0xFFF [0x01] (State.reset.setI 0x0FFF)) 0 0 1 (0, 7) ∧
      Framebuffer.get (pixels [(0, 7)]) (0, 7) = true := ⟨⟨0, 7, by decide, by decide, by decide, by decide, by decide⟩, by decide⟩

theorem test_witness_DrwFlipsThePixelsUnderTheSprite_uncovered :
    ∀ p, ¬ SpriteCovers (State.reset.setI 0x0FFF) 0 0 0 p := fun _ ⟨_, _, hr, _⟩ => absurd hr (Nat.not_lt_zero _)

theorem test_witness_DrawingTwiceRestoresTheScreen :
    (ran 0xD121 (withRegs [(1, 63), (2, 31)])).map (fun t => (t.getV 1, t.getV 2)) = some (63, 31) := by decide

theorem test_witness_KeySkipsTestOneKey :
    ((withRegs [(4, 15)]).getV 4).toNat = (15 : Fin 16).val ∧ ((withRegs [(4, 0)]).getV 4).toNat = (0 : Fin 16).val ∧ 15 < ((withRegs [(4, 16)]).getV 4).toNat := by decide

theorem test_witness_WkeyWaitsForAKey :
    (∀ k, State.reset.keyDown k = false) ∧ (State.reset.setKey 15 true).keyDown 15 = true ∧
      ∀ j, j < 15 → (State.reset.setKey 15 true).keyDown j = false := by decide

theorem test_witness_DecoderFollowsTheOpcodeMap :
    (⟨"CLS", 0xFFFF, 0x00E0⟩ : OpcodeRow) ∈ opcodeRows ∧ (⟨"SYS", 0xF000, 0x0000⟩ : OpcodeRow) ∈ opcodeRows ∧
      (0x00E0 : Word) &&& 0xFFFF = 0x00E0 ∧ (0x00E0 : Word) &&& 0xF000 = 0x0000 := by decide

theorem test_witness_DecodeOfEncode :
    Instr.wellFormed (.sys 0x0E1) = true ∧ Instr.wellFormed (.drw 15 15 15) = true := by decide

theorem test_witness_EncodeOfDecode :
    (decodeWord 0xFF65).toOption = some (.ldm 15) := by decide

theorem test_witness_StepRunsTheDecodedInstruction :
    fetched (holding 0x00E0) = some 0x00E0 ∧ (decodeWord 0x00E0).toOption = some .cls ∧ (holding 0x00E0).agenda = [] ∧
      ((holding 0x00E0).withAgenda [.step 0xA7]).agenda = [.step 0xA7] := by decide

theorem test_witness_FetchReadsTwoBytesBigEndian :
    4096 ≤ (atPc 4095 State.reset).pc.toNat + 1 ∧ (atPc 4094 State.reset).pc.toNat + 1 < 4096 := by decide

theorem test_witness_UnrecognizedWordOnlyAdvances :
    fetched (holding 0xFFFF) = some 0xFFFF ∧ decodeWord 0xFFFF = .error (.unrecognized 0xFFFF) := ⟨by decide, rfl⟩

theorem test_witness_PcMovesByClass :
    [Instr.cls, .sei 0 0, .jp 0xFFF, .call 0, .jpv0 0xFFF, .wkey 0].all (fun i => completes i State.reset) = true ∧
      completes .ret { State.reset with sp := 1 } = true ∧ completes (.wkey 0) (State.reset.setKey 15 true) = true := by decide

theorem test_witness_CompletedStepReportsItsWord :
    (match engineStep (holding 0x00E0) with | .next t => some t.outcome | _ => none) = some .ok ∧
      (match engineStep (holding 0xFFFF) with | .next t => some t.outcome | _ => none) = some (.unrecognized 0xFFFF) := by decide

theorem test_witness_SelfJumpIsAFixedPoint :
    (holding 0x1200).AtSelfJump := ⟨0x1200, 0x200, rfl, rfl, rfl⟩

theorem test_witness_FaultTableIsExact :
    (∀ kind, ¬ FaultCondition (.stm 15) (State.reset.setI 0x0FF0) kind) ∧ FaultCondition (.stm 15) (State.reset.setI 0x0FF1) .oobMemory := ⟨fun _ h => absurd h.2 (by decide), rfl, by decide⟩

theorem test_witness_FaultingStepIsVoid :
    engineStep ((holding 0x00EE).beginStep (some 0)) = .fault .stackUnderflow := rfl

theorem test_witness_FaultedBlockIsStuck :
    (∀ e ∈ [Event.step 0, .tick, .setKey 15 true, .clearRedraw], e.isInit = false) ∧
      engineStep (holding 0x00EE) = .fault .stackUnderflow := ⟨by decide, rfl⟩

theorem test_witness_OnlySixOperationsWriteVf :
    completes (.add 0 0) State.reset = true ∧ completes (.ldi 14 1) State.reset = true ∧ writtenThroughX (.ldi 14 1) ≠ some 15 := by decide

theorem test_witness_EachPartHasItsWriters :
    completes (.mov 0 1) (State.reset.setScreen Framebuffer.clear) = true ∧ (State.reset.setScreen Framebuffer.clear).redraw = true := by decide

theorem test_witness_NestedCallsReturn :
    (List.replicate 16 (0x200 : Addr)) ≠ [] ∧ State.reset.sp.val + (List.replicate 16 (0x200 : Addr)).length ≤ 16 ∧
      16 < State.reset.sp.val + (List.replicate 17 (0x200 : Addr)).length := by decide

theorem test_witness_StepKeepsTheInvariant :
    (holding 0xBFFF).Inv ∧ (match step (holding 0xBFFF) with | .next _ => true | _ => false) = true := by decide

/-- A schedule that loads a program and runs its first instruction. -/
theorem test_witness_EveryScheduleKeepsTheInvariant :
    ∃ t, RunsFromReset [.init [0x12, 0x00], .setKey 15 true, .tick, .step 0xA7] 4 t := ⟨_, rfl⟩

theorem test_witness_ResetBuildsTheStartState_font :
    (List.replicate 0x200 (0xFF : Byte)).length ≤ 0x200 ∧ ([] : List Byte).length ≤ 0x200 ∧ fontTable.length ≤ 0x200 := ⟨Nat.le_of_eq List.length_replicate, by decide, by decide⟩

theorem test_witness_ResetBuildsTheStartState_rom :
    (List.replicate 3584 (0xFF : Byte)).length ≤ 3584 ∧ ([] : List Byte).length ≤ 3584 := ⟨Nat.le_of_eq List.length_replicate, by decide⟩

theorem test_witness_ResetBuildsTheStartState_event :
    (State.reset.withAgenda [.init [0x12, 0x00]]).agenda = [.init [0x12, 0x00]] ∧ ([0x12, 0x00] : List Byte).length ≤ 3584 := by decide

theorem test_witness_TooLongRomChangesNothing :
    3584 < (List.replicate 3585 (0 : Byte)).length ∧ Event.isInit .tick = false := ⟨by rw [List.length_replicate]; decide, rfl⟩

theorem test_witness_KeyAndRedrawEventsWriteOneSlice :
    (State.reset.withAgenda [.setKey 15 true]).agenda = [.setKey 15 true] ∧ (State.reset.withAgenda [.clearRedraw]).agenda = [.clearRedraw] ∧
      (14 : Fin 16) ≠ 15 := by decide

theorem test_witness_StepAgreesWithTheBlock :
    (match step ((holding 0x00E0).withAgenda [.step 0]) with | .next _ => true | _ => false) = true ∧
      step ((holding 0x00EE).withAgenda [.step 0]) = .fault .stackUnderflow := ⟨by decide, rfl⟩

end Sys2Proof.Machine.Slice0Tests
end

section
/-! PROOFS. The encoding (spec 30_encoding.md): the fields of a word, and the step on an unrecognized word. -/

namespace Sys2Proof.Machine

/-- Settles O33 (R46) by the field laws. A word has 16 bits, so the top nibble is the quotient itself, without reduction
mod 16. -/
theorem fieldsAreTheNibbles : Obligations.FieldsAreTheNibbles := by
  intro w
  have op_lt : w.toNat / 4096 < 16 := Nat.div_lt_of_lt_mul w.isLt
  have hop : (fields w).op.toNat = w.toNat / 4096 := (fields_op_toNat w).trans (Nat.mod_eq_of_lt op_lt)
  exact ⟨hop, fields_x_toNat w, fields_y_toNat w, fields_n_toNat w, fields_nn_toNat w, fields_nnn_toNat w⟩

/-- `pc` and the outcome are no part of a frame, so writing them alone keeps every part. -/
theorem keepsAllBut_nil_pc_outcome (s : State) (target : Word) (report : Report) :
    KeepsAllBut [] s { s with pc := target, outcome := report } := by
  rintro p -
  cases p
  case v | fb | key | mem => exact fun _ => rfl
  all_goals rfl

/-- Settles O41 (R52): the step engine hands the word to UNREC, which writes `pc` and the outcome alone. -/
theorem unrecognizedWordOnlyAdvances : Obligations.UnrecognizedWordOnlyAdvances := by
  intro s w hfetch hdecode
  have hstep : engineStep s = execUnrec w s := engineStep_unrecognized hfetch hdecode
  exact ⟨_, hstep, rfl, rfl, keepsAllBut_nil_pc_outcome s (s.pc + 2) (.unrecognized w)⟩

end Sys2Proof.Machine
end

section
/-! PROOFS. What a number decodes to, one lemma per operand form of its word (spec 30_encoding.md R46, R48). -/

namespace Sys2Proof.Machine

/-- A number that is a word's value decodes as the word's fields do. -/
theorem decodesTo_iff {k : Nat} {w : Word} {i : Instr} (hk : w.toNat = k) :
    DecodesTo k i ↔ decodeFields (fields w) = some i := by
  rw [DecodesTo, ← hk, BitVec.ofNat_toNat, BitVec.setWidth_eq, decodeWord_ok]

/-- The form `op : nnn`. -/
theorem decodesTo_nnn {op : Nibble} {nnn : Addr} {i : Instr}
    (hd : ∀ f : Fields, f.op = op → f.nnn = nnn → decodeFields f = some i) :
    DecodesTo (4096 * op.toNat + nnn.toNat) i := by
  obtain ⟨hop, hnnn⟩ := fields_word_nnn op nnn
  exact (decodesTo_iff (by rw [word_nnn_toNat, Nat.mul_comm])).2 (hd _ hop hnnn)

/-- The form `op : x : nn`. -/
theorem decodesTo_xnn {op : Nibble} {x : Reg} {nn : Byte} {i : Instr}
    (hd : ∀ f : Fields, f.op = op → regOf f.x = x → f.nn = nn → decodeFields f = some i) :
    DecodesTo (4096 * op.toNat + 256 * x.val + nn.toNat) i := by
  obtain ⟨hop, hx, hnn⟩ := fields_word_xnn op (nibOf x) nn
  refine (decodesTo_iff ?_).2 (hd _ hop (by rw [hx, regOf_nibOf]) hnn)
  rw [word_xnn_toNat, nibOf_toNat, Nat.mul_comm, Nat.mul_comm x.val]

/-- The form `op : x : y : n`, where the fields are given whole. -/
theorem decodesTo_xyn {op n : Nibble} {x y : Reg} {i : Instr} :
    DecodesTo (4096 * op.toNat + 256 * x.val + 16 * y.val + n.toNat) i ↔
      decodeFields ⟨op, nibOf x, nibOf y, n⟩ = some i := by
  rw [← fields_word_xyn]
  apply decodesTo_iff
  rw [word_xyn_toNat, nibOf_toNat, nibOf_toNat, Nat.mul_comm, Nat.mul_comm x.val, Nat.mul_comm y.val]

end Sys2Proof.Machine
end

section
/-! PROOFS. Control flow (spec 41_control_flow.md). -/

namespace Sys2Proof.Machine

/-! ## Completing a step (R65, R67) -/

/-- Completing a step writes `pc` and the outcome, which no frame speaks of. -/
theorem KeepsAllBut.finishAt {changed : List Part} {s t : State} (h : KeepsAllBut changed s t) (target : Word) :
    KeepsAllBut changed s (t.finishAt target) := by
  intro p hp
  have hsame : p.same s t := h p hp
  cases p <;> exact hsame

theorem keepsAllBut_nil_finishAt (s : State) (target : Word) : KeepsAllBut [] s (s.finishAt target) :=
  keepsAllBut_nil_pc_outcome s target .ok

/-- A skip, its condition given as a proposition (R65). -/
theorem completeSkip_spec (s : State) {c : Bool} {P : Prop} [Decidable P] (hc : c = true ↔ P) :
    ∃ t, completeSkip s c = .next t ∧ t.pc = (if P then s.pc + 4 else s.pc + 2) ∧ t.outcome = .ok ∧
      KeepsAllBut [] s t := by
  have hpc : (if c = true then s.pc + 4 else s.pc + 2) = if P then s.pc + 4 else s.pc + 2 := if_congr hc rfl rfl
  exact ⟨_, completeSkip_eq s c, hpc, rfl, keepsAllBut_nil_finishAt s _⟩

/-- A step whose instruction faults records the fault and changes nothing else (R66). -/
theorem State.afterStep_of_exec_fault {s : State} {w : Word} {i : Instr} {kind : Fault} (hf : fetch s = .ok w)
    (hd : decodeWord w = .ok i) (he : exec i s = .fault kind) : s.afterStep s.rnd = s.recordFault kind := by
  have hstep : engineStep (s.beginStep s.rnd) = .fault kind := (engineStep_decoded hf hd).trans he
  simp only [State.afterStep, hstep]

/-! ## The stack with `k` entries below the one that moves (R17) -/

theorem State.push_at {s : State} {k : Fin 16} (w : Word) (hk : s.sp.val = k.val) :
    s.push w = some { s with stack := s.stack.set k w, sp := k.succ } := by
  refine State.push_some.2 ⟨by omega, ?_⟩
  simp [hk, Fin.ext_iff]

theorem State.pop_at {s : State} {k : Fin 16} (hk : s.sp.val = k.val + 1) :
    s.pop = some (s.stack[k], { s with sp := k.castSucc }) := by
  refine State.pop_some.2 ⟨by omega, ?_⟩
  simp [hk, Fin.ext_iff]

theorem State.push_keepsAllBut {s t : State} {w : Word} (h : s.push w = some t) : KeepsAllBut [.stack, .sp] s t := by
  obtain ⟨_, rfl⟩ := State.push_some.1 h
  intro p hp
  cases p
  case stack | sp => simp at hp
  case v | fb | key | mem => exact fun _ => rfl
  all_goals rfl

theorem State.pop_keepsAllBut {s t : State} {w : Word} (h : s.pop = some (w, t)) : KeepsAllBut [.sp] s t := by
  obtain ⟨_, _, rfl⟩ := State.pop_some.1 h
  intro p hp
  cases p
  case sp => simp at hp
  case v | fb | key | mem => exact fun _ => rfl
  all_goals rfl

/-! ## CALL and RET by what the stack answers (R75, R78) -/

theorem exec_call_of_push {nnn : Addr} {s u : State} (h : s.push s.pc = some u) :
    exec (.call nnn) s = .next (u.finishAt (absolute nnn)) := by
  simp only [exec, execCall, h, completeAt_eq]

theorem exec_call_of_full (nnn : Addr) {s : State} (h : s.sp.val = 16) :
    exec (.call nnn) s = .fault .stackOverflow := by
  simp only [exec, execCall, State.push_none.2 h, raiseFault]

theorem exec_ret_of_pop {s u : State} {w : Word} (h : s.pop = some (w, u)) :
    exec .ret s = .next (u.finishAt (w + 2)) := by
  simp only [exec, execRet, h, completeAt_eq]

theorem exec_ret_of_empty {s : State} (h : s.sp.val = 0) : exec .ret s = .fault .stackUnderflow := by
  simp only [exec, execRet, State.pop_none.2 h, raiseFault]

/-! ## The words of SER and SNER (R81, R82) -/

theorem decodeFields_ser_sner_none {op : Nibble} (hop : op = 0x5 ∨ op = 0x9) {x y n : Nibble} (hn : n ≠ 0) :
    decodeFields ⟨op, x, y, n⟩ = none := by
  obtain rfl | rfl := hop <;> exact if_neg hn

/-- `5xyn` and `9xyn` with `n` other than 0 are unrecognized. -/
theorem not_decodesTo_ser_sner {op : Nibble} (hop : op = 0x5 ∨ op = 0x9) (x y : Reg) {n : Nat} (hn : 1 ≤ n)
    (hn16 : n < 16) (i : Instr) : ¬ DecodesTo (4096 * op.toNat + 256 * x.val + 16 * y.val + n) i := by
  have hnib : (BitVec.ofNat 4 n).toNat = n := (BitVec.toNat_ofNat n 4).trans (Nat.mod_eq_of_lt hn16)
  have hne : BitVec.ofNat 4 n ≠ 0 := fun h => by
    have hzero : n = 0 := hnib.symm.trans (congrArg BitVec.toNat h)
    omega
  rw [← hnib, decodesTo_xyn, decodeFields_ser_sner_none hop hne]
  exact nofun

/-! ## The statements -/

/-- Settles O1 (R76, R53): the two precedence tests of `op` = 0 fail, and SYS completes at `pc + 2`. -/
theorem sysOnlyAdvances : Obligations.SysOnlyAdvances := by
  intro nnn s
  refine ⟨fun hcls hret => ?_, s.finishAt (s.pc + 2), rfl, rfl, rfl, keepsAllBut_nil_finishAt s _⟩
  have hsys (f : Fields) (hnnn : f.nnn = nnn) : decodeSystem f = .sys nnn := by
    rw [decodeSystem, hnnn, if_neg hcls, if_neg hret]
  have hword : DecodesTo (4096 * (0x0 : Nibble).toNat + nnn.toNat) (.sys nnn) :=
    decodesTo_nnn fun f hop hnnn => by simp [decodeFields, hop, hsys f hnnn]
  simpa using hword

/-- Settles O2 (R77): the zero-extended target has the value of its 12-bit address. -/
theorem jpSetsPc : Obligations.JpSetsPc := by
  intro nnn s
  refine ⟨decodesTo_nnn (op := 0x1) fun f hop hnnn => ?_, ?_⟩
  · simp [decodeFields, hop, hnnn]
  · exact ⟨s.finishAt (absolute nnn), rfl, absolute_toNat nnn, rfl, keepsAllBut_nil_finishAt s _⟩

/-- Settles O3 (R78) by the two answers of the push: entry `k` is written, or the stack is full and the step is void. -/
theorem callPushesItsOwnAddress : Obligations.CallPushesItsOwnAddress := by
  intro nnn s
  refine ⟨decodesTo_nnn (op := 0x2) fun f hop hnnn => ?_, fun k hk => ?_, exec_call_of_full nnn, ?_⟩
  · simp [decodeFields, hop, hnnn]
  · have hpush := State.push_at s.pc hk
    refine ⟨_, exec_call_of_push hpush, ?_, fun j hj => ?_, ?_, absolute_toNat nnn, rfl,
      (State.push_keepsAllBut hpush).finishAt _⟩
    · simp
    · have hval : k.val ≠ j.val := fun h => hj (Fin.ext h.symm)
      simp [hval]
    · simp [hk]
  · intro w hfull hfetch hdecode
    exact State.afterStep_of_exec_fault hfetch hdecode (exec_call_of_full nnn hfull)

/-- Settles O4 (R75) by the two answers of the pop: entry `k` is read and kept, or the stack is empty and the step is
void. -/
theorem retResumesAfterTheCall : Obligations.RetResumesAfterTheCall := by
  intro s
  refine ⟨rfl, fun k hk => ?_, exec_ret_of_empty, ?_⟩
  · have hpop := State.pop_at hk
    exact ⟨_, exec_ret_of_pop hpop, rfl, BitVec.toNat_add _ _, rfl, (State.pop_keepsAllBut hpop).finishAt _⟩
  · intro w hempty hfetch hdecode
    exact State.afterStep_of_exec_fault hfetch hdecode (exec_ret_of_empty hempty)

/-- Settles O5 (R79, R80): both are one skip, on the test and on its complement. -/
theorem skipsOnImmediate : Obligations.SkipsOnImmediate := by
  intro x nn s
  refine ⟨decodesTo_xnn (op := 0x3) fun f hop hx hnn => ?_, decodesTo_xnn (op := 0x4) fun f hop hx hnn => ?_,
    completeSkip_spec s beq_iff_eq, completeSkip_spec s bne_iff_ne⟩
  · simp [decodeFields, hop, hx, hnn]
  · simp [decodeFields, hop, hx, hnn]

/-- Settles O6 (R81, R82): the low nibble 0 is part of the two words, and the skips are as for an immediate. -/
theorem skipsOnRegisters : Obligations.SkipsOnRegisters := by
  intro x y s
  refine ⟨decodesTo_xyn (op := 0x5) (n := 0).2 rfl, decodesTo_xyn (op := 0x9) (n := 0).2 rfl, fun n i hn hn16 => ?_,
    completeSkip_spec s beq_iff_eq, completeSkip_spec s bne_iff_ne⟩
  exact ⟨not_decodesTo_ser_sner (.inl rfl) x y hn hn16 i, not_decodesTo_ser_sner (.inr rfl) x y hn hn16 i⟩

/-- Settles O7 (R83): the sum is below 2^16, so the 16-bit addition is the natural one. -/
theorem jpv0AddsV0 : Obligations.Jpv0AddsV0 := by
  intro nnn s
  refine ⟨decodesTo_nnn (op := 0xB) fun f hop hnnn => ?_, ?_⟩
  · simp [decodeFields, hop, hnnn]
  · exact ⟨s.finishAt (s.indexedTarget nnn), rfl, s.indexedTarget_toNat nnn, rfl, keepsAllBut_nil_finishAt s _⟩

end Sys2Proof.Machine
end

section
/-! PROOFS. Register load and ALU (spec 42_load_alu.md): the frame of a register write, the two ways an instruction of this
family completes, and its words. -/

namespace Sys2Proof.Machine

/-! ## Frames through a register write and a random draw -/

theorem KeepsAllBut.refl (changed : List Part) (s : State) : KeepsAllBut changed s s := by
  rintro p -
  cases p
  case v | fb | key | mem => exact fun _ => rfl
  all_goals rfl

/-- A register write keeps every part but the registers. -/
theorem KeepsAllBut.setV {changed : List Part} {s t : State} (h : KeepsAllBut changed s t) (hv : .v ∈ changed)
    (x : Reg) (b : Byte) : KeepsAllBut changed s (t.setV x b) := by
  intro p hp
  have hsame : p.same s t := h p hp
  cases p
  case v => exact absurd hv hp
  all_goals exact hsame

/-- A draw keeps every part but the model's own draw counter (log 3). -/
theorem KeepsAllBut.countRnd {changed : List Part} {s t : State} (h : KeepsAllBut changed s t)
    (hc : .rndCount ∈ changed) : KeepsAllBut changed s t.countRnd := by
  intro p hp
  have hsame : p.same s t := h p hp
  cases p
  case rndCount => exact absurd hc hp
  all_goals exact hsame

/-! ## Completing after a register write (R12, R65) -/

/-- An instruction whose one effect is `V[x] <- b`; no flag is written. -/
theorem completeNext_setV_spec (s : State) (x : Reg) (b : Byte) :
    ∃ t, completeNext (s.setV x b) = .next t ∧ t.getV x = b ∧ (∀ r, r ≠ x → t.getV r = s.getV r) ∧
      t.pc = s.pc + 2 ∧ t.outcome = .ok ∧ KeepsAllBut [.v] s t :=
  ⟨_, completeNext_eq _, s.getV_setV_self x b, fun _ hr => s.getV_setV_ne b hr, rfl, rfl,
    ((KeepsAllBut.refl _ s).setV (by decide) x b).finishAt _⟩

/-- An instruction that writes `V[x]`, then VF: with `x` = 15 the flag stays. -/
theorem completeNext_setResultFlag_spec (s : State) (x : Reg) (result flag : Byte) :
    ∃ t, completeNext (s.setResultFlag x result flag) = .next t ∧ t.getV 15 = flag ∧
      (x ≠ 15 → t.getV x = result) ∧ (∀ r, r ≠ x → r ≠ 15 → t.getV r = s.getV r) ∧
      t.pc = s.pc + 2 ∧ t.outcome = .ok ∧ KeepsAllBut [.v] s t := by
  have hframe : KeepsAllBut [.v] s (s.setResultFlag x result flag) :=
    ((KeepsAllBut.refl _ s).setV (by decide) x result).setV (by decide) vf flag
  refine ⟨_, completeNext_eq _, ?_, fun hx => ?_, fun r hrx hr => ?_, rfl, rfl, hframe.finishAt _⟩
  · exact (s.setV x result).getV_setV_self vf flag
  · exact ((s.setV x result).getV_setV_ne flag hx).trans (s.getV_setV_self x result)
  · exact ((s.setV x result).getV_setV_ne flag hr).trans (s.getV_setV_ne result hrx)

/-! ## Results and flags as numbers (R11, R102) -/

theorem sum8_toNat (a b : Byte) : (sum8 a b).toNat = (a.toNat + b.toNat) % 256 := BitVec.toNat_ofNat _ 8

theorem flagByte_toNat (b : Bool) : (flagByte b).toNat = if b = true then 1 else 0 := by cases b <;> rfl

theorem flagByte_carryOut_toNat (a b : Byte) :
    (flagByte (carryOut a b)).toNat = if 256 ≤ a.toNat + b.toNat then 1 else 0 :=
  (flagByte_toNat _).trans (if_congr decide_eq_true_iff rfl rfl)

/-- The byte the host gives with the step is the one RND reads (R69). -/
theorem State.rndByte_of_given {s : State} {rnd : Byte} (h : s.rnd = some rnd) : s.rndByte = rnd := by
  simp only [State.rndByte, h]

/-! ## The words of the ALU group (R50 rows 11 to 19) -/

/-- The word `8xyn`, its low nibble added to the constant part. -/
theorem decodesTo_alu {x y : Reg} {i : Instr} (n : Nibble) (hd : decodeAlu ⟨0x8, nibOf x, nibOf y, n⟩ = some i) :
    DecodesTo (0x8000 + n.toNat + 256 * x.val + 16 * y.val) i := by
  have hsum : 0x8000 + n.toNat + 256 * x.val + 16 * y.val =
      4096 * (0x8 : Nibble).toNat + 256 * x.val + 16 * y.val + n.toNat := by
    have hop : 4096 * (0x8 : Nibble).toNat = 0x8000 := rfl
    omega
  rw [hsum]
  exact decodesTo_xyn.2 hd

/-! ## The statements -/

/-- Settles O8 (R90): the immediate is the one register written. -/
theorem ldiLoadsTheImmediate : Obligations.LdiLoadsTheImmediate := by
  intro x nn s
  refine ⟨decodesTo_xnn (op := 0x6) fun f hop hx hnn => ?_, completeNext_setV_spec s x nn⟩
  simp [decodeFields, hop, hx, hnn]

/-- Settles O9 (R91): the narrowed sum is the one register written, so no flag is. -/
theorem addiWrapsWithoutFlag : Obligations.AddiWrapsWithoutFlag := by
  intro x nn s
  refine ⟨decodesTo_xnn (op := 0x7) fun f hop hx hnn => ?_, ?_⟩
  · simp [decodeFields, hop, hx, hnn]
  · obtain ⟨t, hexec, hsum, hrest⟩ := completeNext_setV_spec s x (sum8 (s.getV x) nn)
    exact ⟨t, hexec, by rw [hsum, sum8_toNat], hrest⟩

/-- Settles O10 (R92): the source is read before the one write, so `x` = `y` needs no case of its own. -/
theorem movCopies : Obligations.MovCopies := by
  intro x y s
  exact ⟨decodesTo_alu 0x0 rfl, completeNext_setV_spec s x (s.getV y)⟩

/-- Settles O12 (R96): sum and carry are computed from the old registers, and VF is written last. -/
theorem addSetsCarry : Obligations.AddSetsCarry := by
  intro x y s
  obtain ⟨t, hexec, hflag, hsum, hrest⟩ := completeNext_setResultFlag_spec s x (sum8 (s.getV x) (s.getV y))
    (flagByte (carryOut (s.getV x) (s.getV y)))
  refine ⟨decodesTo_alu 0x4 rfl, t, hexec, ?_, fun hx => ?_, hrest⟩
  · rw [hflag, flagByte_carryOut_toNat]
  · rw [hsum hx, sum8_toNat]

/-- Settles O18 (R101): `V[x]` is the step's byte under the mask, whether or not the schedule gave that byte (log 3). -/
theorem rndMasksTheGivenByte : Obligations.RndMasksTheGivenByte := by
  intro x nn s
  have hval : (s.setV x (s.rndByte &&& nn)).getV x = s.rndByte &&& nn := s.getV_setV_self x _
  have hframe : KeepsAllBut [.v, .rndCount] s (s.setV x (s.rndByte &&& nn)).countRnd :=
    ((KeepsAllBut.refl _ s).setV (by decide) x _).countRnd (by decide)
  refine ⟨decodesTo_xnn (op := 0xC) fun f hop hx hnn => ?_, _, completeNext_eq _, fun rnd hrnd => ?_, fun b hb => ?_,
    fun r hr => s.getV_setV_ne _ hr, rfl, rfl, hframe.finishAt _⟩
  · simp [decodeFields, hop, hx, hnn]
  · exact hval.trans (by rw [State.rndByte_of_given hrnd])
  · have hbit : (s.rndByte &&& nn).getLsbD b = false := by rw [BitVec.getLsbD_and, hb, Bool.and_false]
    exact (congrArg (BitVec.getLsbD · b) hval).trans hbit

end Sys2Proof.Machine
end

section
/-! PROOFS. Index register and memory (spec 43_index_memory.md): the frame of an index write, and LDIX. -/

namespace Sys2Proof.Machine

/-- An index write keeps every part but `I`. -/
theorem KeepsAllBut.setI {changed : List Part} {s t : State} (h : KeepsAllBut changed s t) (hi : .i ∈ changed)
    (w : Word) : KeepsAllBut changed s (t.setI w) := by
  intro p hp
  have hsame : p.same s t := h p hp
  cases p
  case i => exact absurd hi hp
  all_goals exact hsame

/-- An instruction whose one effect is `I <- w`; no register is written, so no flag is. -/
theorem completeNext_setI_spec (s : State) (w : Word) :
    ∃ t, completeNext (s.setI w) = .next t ∧ t.i = w ∧ t.pc = s.pc + 2 ∧ t.outcome = .ok ∧ KeepsAllBut [.i] s t :=
  ⟨_, completeNext_eq _, rfl, rfl, rfl, ((KeepsAllBut.refl _ s).setI (by decide) w).finishAt _⟩

/-- Settles O19 (R110): `I` receives the zero-extended address, whose upper four bits are 0. -/
theorem ldixLoadsIndex : Obligations.LdixLoadsIndex := by
  intro nnn s
  refine ⟨decodesTo_nnn (op := 0xA) fun f hop hnnn => ?_, ?_⟩
  · simp [decodeFields, hop, hnnn]
  · obtain ⟨t, hexec, hindex, hrest⟩ := completeNext_setI_spec s (absolute nnn)
    exact ⟨t, hexec, by rw [hindex, absolute_toNat], hrest⟩

end Sys2Proof.Machine
end

section
/-! PROOFS. Framebuffer (spec 44_display.md): the frame of a screen write, and CLS. -/

namespace Sys2Proof.Machine

/-- A screen write keeps every part but the framebuffer and `redraw`. -/
theorem KeepsAllBut.setScreen {changed : List Part} {s t : State} (h : KeepsAllBut changed s t)
    (hfb : .fb ∈ changed) (hredraw : .redraw ∈ changed) (fb : Framebuffer) :
    KeepsAllBut changed s (t.setScreen fb) := by
  intro p hp
  have hsame : p.same s t := h p hp
  cases p
  case fb => exact absurd hfb hp
  case redraw => exact absurd hredraw hp
  all_goals exact hsame

/-- An instruction whose one effect is a new screen; `redraw` is set whatever the old screen was. -/
theorem completeNext_setScreen_spec (s : State) (fb : Framebuffer) :
    ∃ t, completeNext (s.setScreen fb) = .next t ∧ t.fb = fb ∧ t.redraw = true ∧ t.pc = s.pc + 2 ∧
      t.outcome = .ok ∧ KeepsAllBut [.fb, .redraw] s t :=
  ⟨_, completeNext_eq _, rfl, rfl, rfl, rfl,
    ((KeepsAllBut.refl _ s).setScreen (by decide) (by decide) fb).finishAt _⟩

/-- Settles O27 (R120): the cleared screen is written whole, so no old pixel decides about a pixel or `redraw`. -/
theorem clsClearsEveryPixel : Obligations.ClsClearsEveryPixel := by
  intro s
  obtain ⟨t, hexec, hfb, hrest⟩ := completeNext_setScreen_spec s Framebuffer.clear
  exact ⟨rfl, t, hexec, fun p => by rw [hfb, Framebuffer.get_clear], hrest⟩

end Sys2Proof.Machine
end

section
/-! PROOFS. Timers (spec 45_keys_timers.md): the frames of the two timer writes, the words of the group `op` = 0xF, and the
three transfers. -/

namespace Sys2Proof.Machine

/-! ## Timer writes (R18) -/

/-- A write of the delay timer keeps every part but `DT`. -/
theorem KeepsAllBut.setDT {changed : List Part} {s t : State} (h : KeepsAllBut changed s t) (hdt : .dt ∈ changed)
    (b : Byte) : KeepsAllBut changed s (t.setDT b) := by
  intro p hp
  have hsame : p.same s t := h p hp
  cases p
  case dt => exact absurd hdt hp
  all_goals exact hsame

/-- A write of the sound timer keeps every part but `ST`; the sound signal is a part of its own. -/
theorem KeepsAllBut.setST {changed : List Part} {s t : State} (h : KeepsAllBut changed s t) (hst : .st ∈ changed)
    (b : Byte) : KeepsAllBut changed s (t.setST b) := by
  intro p hp
  have hsame : p.same s t := h p hp
  cases p
  case st => exact absurd hst hp
  all_goals exact hsame

/-- An instruction whose one effect is `DT <- b`. -/
theorem completeNext_setDT_spec (s : State) (b : Byte) :
    ∃ t, completeNext (s.setDT b) = .next t ∧ t.dt = b ∧ t.pc = s.pc + 2 ∧ t.outcome = .ok ∧ KeepsAllBut [.dt] s t :=
  ⟨_, completeNext_eq _, rfl, rfl, rfl, ((KeepsAllBut.refl _ s).setDT (by decide) b).finishAt _⟩

/-- An instruction whose one effect is `ST <- b`; it raises no signal. -/
theorem completeNext_setST_spec (s : State) (b : Byte) :
    ∃ t, completeNext (s.setST b) = .next t ∧ t.st = b ∧ t.pc = s.pc + 2 ∧ t.outcome = .ok ∧ KeepsAllBut [.st] s t :=
  ⟨_, completeNext_eq _, rfl, rfl, rfl, ((KeepsAllBut.refl _ s).setST (by decide) b).finishAt _⟩

/-! ## The words of the group `op` = 0xF (R50) -/

/-- The word `Fxnn`, its selector `nn` added to the constant part. -/
theorem decodesTo_misc {x : Reg} {i : Instr} (nn : Byte)
    (hd : ∀ f : Fields, regOf f.x = x → f.nn = nn → decodeMisc f = some i) :
    DecodesTo (0xF000 + nn.toNat + 256 * x.val) i := by
  rw [Nat.add_right_comm]
  exact decodesTo_xnn (op := 0xF) fun f hop hx hnn => by simp [decodeFields, hop, hd f hx hnn]

/-! ## The statements -/

/-- Settles O32 (R128, R129, R130): each transfer is one write, so its frame is that of `V[x]`, of `DT` or of `ST`. -/
theorem timerTransfersMoveOneByte : Obligations.TimerTransfersMoveOneByte := by
  intro x s
  refine ⟨decodesTo_misc 0x07 fun f hx hnn => ?_, decodesTo_misc 0x15 fun f hx hnn => ?_,
    decodesTo_misc 0x18 fun f hx hnn => ?_, completeNext_setV_spec s x s.dt, completeNext_setDT_spec s (s.getV x),
    completeNext_setST_spec s (s.getV x)⟩
  · simp [decodeMisc, hx, hnn]
  · simp [decodeMisc, hx, hnn]
  · simp [decodeMisc, hx, hnn]

end Sys2Proof.Machine
end

section
/-! PROOFS. Host events (spec 60_exceptions.md): the countdown of a timer, the frame of a tick, and the tick. -/

namespace Sys2Proof.Machine

/-- R148: the countdown is the natural predecessor, which is 0 at 0; it stays a byte, so it is not reduced. -/
theorem countDown_toNat (b : Byte) : (countDown b).toNat = b.toNat - 1 := by
  have hlt : b.toNat - 1 < 2 ^ 8 := Nat.lt_of_le_of_lt (Nat.sub_le _ 1) b.isLt
  exact (BitVec.toNat_ofNat _ 8).trans (Nat.mod_eq_of_lt hlt)

/-- The countdown in the spec's own cases. -/
theorem countDown_toNat_eq_ite (b : Byte) :
    (countDown b).toNat = if b.toNat > 0 then b.toNat - 1 else b.toNat := by
  rw [countDown_toNat]
  split
  case isTrue => rfl
  case isFalse hzero => omega

/-- A tick keeps every part but the two timers and the sound signal. -/
theorem KeepsAllBut.tick {changed : List Part} {s t : State} (h : KeepsAllBut changed s t) (hdt : .dt ∈ changed)
    (hst : .st ∈ changed) (hsound : .soundZero ∈ changed) : KeepsAllBut changed s t.tick := by
  intro p hp
  have hsame : p.same s t := h p hp
  cases p
  case dt => exact absurd hdt hp
  case st => exact absurd hst hp
  case soundZero => exact absurd hsound hp
  all_goals exact hsame

/-- R149: the signal tells of the timer's value before the tick. -/
theorem tick_soundZero_eq_decide_toNat (s : State) : s.tick.soundZero = decide (s.st.toNat = 1) := by
  have hone : s.st = 1 ↔ s.st.toNat = 1 := BitVec.toNat_inj.symm
  exact decide_eq_decide.2 hone

/-- Settles O57 (R148): DT and ST count down by the same rule, each from its own value. -/
theorem tickCountsBothTimersDown : Obligations.TickCountsBothTimersDown := by
  intro s
  exact ⟨tick_soundZero_eq_decide_toNat s, countDown_toNat_eq_ite s.dt, countDown_toNat_eq_ite s.st, rfl, rfl,
    (KeepsAllBut.refl _ s).tick (by decide) (by decide) (by decide)⟩

end Sys2Proof.Machine
end

section
/-! PROOFS. The encoder and the decoder undo each other (spec 30_encoding.md R45 to R55). -/

namespace Sys2Proof.Machine

/-! ## What the decoder reads from an encoded word, by the operand form of the word -/

theorem decodeFields_word_nnn {op : Nibble} {nnn : Addr} {i : Instr}
    (hd : ∀ f : Fields, f.op = op → f.nnn = nnn → decodeFields f = some i) :
    decodeFields (fields (op ++ nnn : Word)) = some i := by
  obtain ⟨hop, hnnn⟩ := fields_word_nnn op nnn
  exact hd _ hop hnnn

theorem decodeFields_word_xnn {op : Nibble} {x : Reg} {nn : Byte} {i : Instr}
    (hd : ∀ f : Fields, f.op = op → regOf f.x = x → f.nn = nn → decodeFields f = some i) :
    decodeFields (fields (op ++ nibOf x ++ nn : Word)) = some i := by
  obtain ⟨hop, hx, hnn⟩ := fields_word_xnn op (nibOf x) nn
  exact hd _ hop (by rw [hx, regOf_nibOf]) hnn

theorem decodeFields_word_xyn {op n : Nibble} {x y : Reg} {i : Instr}
    (hd : decodeFields ⟨op, nibOf x, nibOf y, n⟩ = some i) :
    decodeFields (fields (op ++ nibOf x ++ nibOf y ++ n : Word)) = some i := by
  rw [fields_word_xyn, hd]

/-- Past the two precedence tests (R49) a word with `op` = 0 is SYS. -/
theorem decodeSystem_eq_sys {f : Fields} {nnn : Addr} (hnnn : f.nnn = nnn) (hcls : nnn ≠ 0x0E0) (hret : nnn ≠ 0x0EE) :
    decodeSystem f = .sys nnn := by
  rw [decodeSystem, hnnn, if_neg hcls, if_neg hret]

/-- The decoder reads a well-formed instruction back from its word. -/
theorem decodeFields_encodeWord {i : Instr} (h : i.wellFormed = true) :
    decodeFields (fields (encodeWord i)) = some i := by
  cases i
  case cls | ret => rfl
  case sys nnn =>
    have hallowed : nnn ≠ 0x0E0 ∧ nnn ≠ 0x0EE := by simpa [Instr.wellFormed, sysAddressAllowed] using h
    obtain ⟨hcls, hret⟩ := hallowed
    exact decodeFields_word_nnn fun f hop hnnn => by simp [decodeFields, hop, decodeSystem_eq_sys hnnn hcls hret]
  case jp | call | ldix | jpv0 => exact decodeFields_word_nnn fun f hop hnnn => by simp [decodeFields, hop, hnnn]
  case sei | snei | ldi | addi | rnd =>
    exact decodeFields_word_xnn fun f hop hx hnn => by simp [decodeFields, hop, hx, hnn]
  case skp | sknp => exact decodeFields_word_xnn fun f hop hx hnn => by simp [decodeFields, decodeKey, hop, hx, hnn]
  case rddt | wkey | wrdt | wrst | addix | font | bcd | stm | ldm =>
    exact decodeFields_word_xnn fun f hop hx hnn => by simp [decodeFields, decodeMisc, hop, hx, hnn]
  case ser | sner | mov | or | and | xor | add | sub | shr | subn | shl | drw => exact decodeFields_word_xyn rfl

/-- Settles O36: the two bytes give the word back, and the decoder reads the instruction from the word's fields, form by
form. -/
theorem decodeOfEncode : Obligations.DecodeOfEncode := by
  intro i rest hwf
  have hword : decodeWord (hiByte (encodeWord i) ++ loByte (encodeWord i)) = .ok i := by
    rw [hiByte_append_loByte, decodeWord_ok, decodeFields_encodeWord hwf]
  simp only [encodeBytes, List.cons_append, List.nil_append, decode, hword]

/-! ## The word that an instruction read from some fields encodes to -/

/-- The word of the four fields (R46). -/
def wordOf (f : Fields) : Word := f.op ++ f.x ++ f.y ++ f.n

theorem wordOf_fields (w : Word) : wordOf (fields w) = w := word_of_fields w

theorem wordOf_toNat (f : Fields) :
    (wordOf f).toNat = f.op.toNat * 4096 + f.x.toNat * 256 + f.y.toNat * 16 + f.n.toNat :=
  word_xyn_toNat f.op f.x f.y f.n

/-! Each form of the encoder, applied to the fields it was read from, is their word. -/

theorem wordOf_eq_nnn {f : Fields} {op : Nibble} (hop : f.op = op) : (op ++ f.nnn : Word) = wordOf f := by
  apply BitVec.eq_of_toNat_eq
  rw [word_nnn_toNat, Fields.nnn_toNat, wordOf_toNat, hop]; omega

theorem wordOf_eq_xnn {f : Fields} {op : Nibble} (hop : f.op = op) : (op ++ f.x ++ f.nn : Word) = wordOf f := by
  apply BitVec.eq_of_toNat_eq
  rw [word_xnn_toNat, Fields.nn_toNat, wordOf_toNat, hop]; omega

theorem wordOf_eq_xyn {f : Fields} {op n : Nibble} (hop : f.op = op) (hn : f.n = n) :
    (op ++ f.x ++ f.y ++ n : Word) = wordOf f := by
  rw [wordOf, hop, hn]

/-! ## The decoder's groups: what they answer is well formed and is the word of its fields -/

theorem decodeSystem_sound {f : Fields} (hop : f.op = 0x0) :
    (decodeSystem f).wellFormed = true ∧ encodeWord (decodeSystem f) = wordOf f := by
  rw [← wordOf_eq_nnn hop]
  unfold decodeSystem
  split
  case isTrue hcls => exact ⟨rfl, by rw [hcls]; rfl⟩
  case isFalse hcls =>
    split
    case isTrue hret => exact ⟨rfl, by rw [hret]; rfl⟩
    case isFalse hret => exact ⟨Bool.and_eq_true_iff.2 ⟨bne_iff_ne.2 hcls, bne_iff_ne.2 hret⟩, rfl⟩

theorem decodeAlu_sound {f : Fields} {i : Instr} (hop : f.op = 0x8) (h : decodeAlu f = some i) :
    i.wellFormed = true ∧ encodeWord i = wordOf f := by
  unfold decodeAlu at h
  split at h
  case h_10 => cases h
  all_goals
    next hn =>
      cases h
      exact ⟨rfl, wordOf_eq_xyn hop (BitVec.eq_of_toNat_eq hn)⟩

theorem decodeKey_sound {f : Fields} {i : Instr} (hop : f.op = 0xE) (h : decodeKey f = some i) :
    i.wellFormed = true ∧ encodeWord i = wordOf f := by
  rw [← wordOf_eq_xnn hop]
  unfold decodeKey at h
  repeat' split at h
  all_goals cases h
  all_goals
    next hnn => exact ⟨rfl, by rw [hnn]; rfl⟩

theorem decodeMisc_sound {f : Fields} {i : Instr} (hop : f.op = 0xF) (h : decodeMisc f = some i) :
    i.wellFormed = true ∧ encodeWord i = wordOf f := by
  rw [← wordOf_eq_xnn hop]
  unfold decodeMisc at h
  repeat' split at h
  all_goals cases h
  all_goals
    next hnn => exact ⟨rfl, by rw [hnn]; rfl⟩

theorem decodeFields_sound {f : Fields} {i : Instr} (h : decodeFields f = some i) :
    i.wellFormed = true ∧ encodeWord i = wordOf f := by
  unfold decodeFields at h
  split at h
  case h_1 hop => cases h; exact decodeSystem_sound (BitVec.eq_of_toNat_eq hop)
  case h_2 hop | h_3 hop | h_11 hop | h_12 hop => cases h; exact ⟨rfl, wordOf_eq_nnn (BitVec.eq_of_toNat_eq hop)⟩
  case h_4 hop | h_5 hop | h_7 hop | h_8 hop | h_13 hop =>
    cases h; exact ⟨rfl, wordOf_eq_xnn (BitVec.eq_of_toNat_eq hop)⟩
  case h_6 hop | h_10 hop =>
    split at h
    case isTrue hn => cases h; exact ⟨rfl, wordOf_eq_xyn (BitVec.eq_of_toNat_eq hop) hn⟩
    case isFalse => cases h
  case h_9 hop => exact decodeAlu_sound (BitVec.eq_of_toNat_eq hop) h
  case h_14 hop => cases h; exact ⟨rfl, wordOf_eq_xyn (BitVec.eq_of_toNat_eq hop) rfl⟩
  case h_15 hop => exact decodeKey_sound (BitVec.eq_of_toNat_eq hop) h
  case h_16 hop => exact decodeMisc_sound (BitVec.eq_of_toNat_eq hop) h
  case h_17 => cases h

/-- Settles O37, group by group of the decoder: the instruction's word is the word of the fields it was read from. -/
theorem encodeOfDecode : Obligations.EncodeOfDecode := by
  intro w i h
  obtain ⟨hwf, hword⟩ := decodeFields_sound (decodeWord_ok.1 h)
  exact ⟨hwf, hword.trans (wordOf_fields w)⟩

/-- Settles O38: each word is a literal, and the decoder computes its instruction. -/
theorem sampleWordsDecode : Obligations.SampleWordsDecode := ⟨rfl, rfl, rfl, rfl, rfl, rfl, rfl, rfl⟩

end Sys2Proof.Machine
end

section
/-! PROOFS. The decoder against the opcode map, and the unrecognized words (spec 30_encoding.md R49 to R51). -/

namespace Sys2Proof.Machine

/-! ## Where the decoder's groups answer nothing (R51) -/

theorem decodeAlu_eq_none {f : Fields} :
    decodeAlu f = none ↔ f.n.toNat ∈ [0x8, 0x9, 0xA, 0xB, 0xC, 0xD, 0xF] := by
  have hlt : f.n.toNat < 16 := f.n.isLt
  unfold decodeAlu
  generalize f.n.toNat = n at *
  interval_cases n <;> simp

theorem decodeKey_eq_none {f : Fields} : decodeKey f = none ↔ f.nn.toNat ∉ [0x9E, 0xA1] := by
  simp [decodeKey, ← BitVec.toNat_inj, ite_eq_iff]

theorem decodeMisc_eq_none {f : Fields} :
    decodeMisc f = none ↔ f.nn.toNat ∉ [0x07, 0x0A, 0x15, 0x18, 0x1E, 0x29, 0x33, 0x55, 0x65] := by
  simp [decodeMisc, ← BitVec.toNat_inj, ite_eq_iff]

/-- The five classes, on the fields of the word. -/
theorem decodeFields_eq_none {f : Fields} :
    decodeFields f = none ↔
      (f.op.toNat = 0x5 ∧ f.n.toNat ≠ 0) ∨
      (f.op.toNat = 0x8 ∧ f.n.toNat ∈ [0x8, 0x9, 0xA, 0xB, 0xC, 0xD, 0xF]) ∨
      (f.op.toNat = 0x9 ∧ f.n.toNat ≠ 0) ∨
      (f.op.toNat = 0xE ∧ f.nn.toNat ∉ [0x9E, 0xA1]) ∨
      (f.op.toNat = 0xF ∧ f.nn.toNat ∉ [0x07, 0x0A, 0x15, 0x18, 0x1E, 0x29, 0x33, 0x55, 0x65]) := by
  have hlt : f.op.toNat < 16 := f.op.isLt
  rw [← decodeAlu_eq_none, ← decodeKey_eq_none, ← decodeMisc_eq_none]
  unfold decodeFields
  generalize f.op.toNat = op at *
  interval_cases op <;> simp [← BitVec.toNat_inj]

/-- Settles O35 (R51): the classes of the decoder's groups, with the fields read off the word as numbers. -/
theorem unrecognizedWordsAreTheseClasses : Obligations.UnrecognizedWordsAreTheseClasses := by
  intro w
  obtain ⟨hop, -, -, hn, hnn, -⟩ := fieldsAreTheNibbles w
  rw [decodeWord_error, and_iff_left rfl, decodeFields_eq_none, hop, hn, hnn]

end Sys2Proof.Machine
end

section
/-! PROOFS. The decoder answers the first matching row of the opcode map (spec 30_encoding.md R49, R50). -/

namespace Sys2Proof.Machine

/-! ## A decoded word matches the row of its instruction -/

theorem encodeWord_matches_row (i : Instr) : Laws.RowMatch.Statement i := by
  cases i
  exacts [Laws.RowMatch.cls, Laws.RowMatch.ret, Laws.RowMatch.sys _, Laws.RowMatch.jp _, Laws.RowMatch.call _,
    Laws.RowMatch.sei _ _, Laws.RowMatch.snei _ _, Laws.RowMatch.ser _ _, Laws.RowMatch.ldi _ _,
    Laws.RowMatch.addi _ _, Laws.RowMatch.mov _ _, Laws.RowMatch.or _ _, Laws.RowMatch.and _ _,
    Laws.RowMatch.xor _ _, Laws.RowMatch.add _ _, Laws.RowMatch.sub _ _, Laws.RowMatch.shr _ _,
    Laws.RowMatch.subn _ _, Laws.RowMatch.shl _ _, Laws.RowMatch.sner _ _, Laws.RowMatch.ldix _,
    Laws.RowMatch.jpv0 _, Laws.RowMatch.rnd _ _, Laws.RowMatch.drw _ _ _, Laws.RowMatch.skp _, Laws.RowMatch.sknp _,
    Laws.RowMatch.rddt _, Laws.RowMatch.wkey _, Laws.RowMatch.wrdt _, Laws.RowMatch.wrst _, Laws.RowMatch.addix _,
    Laws.RowMatch.font _, Laws.RowMatch.bcd _, Laws.RowMatch.stm _, Laws.RowMatch.ldm _]

theorem row_of_decoded {w : Word} {i : Instr} (h : decodeWord w = .ok i) :
    ∃ r ∈ opcodeRows, r.mnemonic = i.mnemonic ∧ w &&& r.mask = r.pattern := by
  obtain ⟨-, hword⟩ := encodeOfDecode w i h
  rw [← hword]
  exact encodeWord_matches_row i

/-! ## A word that matches a row is decoded -/

/-- Masking a word masks each of its fields. -/
theorem fields_and (w m : Word) :
    fields (w &&& m) = ⟨(fields w).op &&& (fields m).op, (fields w).x &&& (fields m).x, (fields w).y &&& (fields m).y,
      (fields w).n &&& (fields m).n⟩ := by
  simp only [fields, BitVec.extractLsb'_and]

theorem nibble_and_mask (d : Nibble) : d &&& 0xF#4 = d := BitVec.and_allOnes

/-- Row by row: the fields that the row fixes lead the decoder to an instruction. -/
theorem decodeFields_ne_none_of_row {w : Word} {r : OpcodeRow} (hr : r ∈ opcodeRows) (h : w &&& r.mask = r.pattern) :
    decodeFields (fields w) ≠ none := by
  have hop : (fields w).op &&& (fields r.mask).op = (fields r.pattern).op := by rw [← h, fields_and]
  have hy : (fields w).y &&& (fields r.mask).y = (fields r.pattern).y := by rw [← h, fields_and]
  have hn : (fields w).n &&& (fields r.mask).n = (fields r.pattern).n := by rw [← h, fields_and]
  generalize fields w = f at *
  fin_cases hr
  all_goals
    simp [fields, nibble_and_mask] at hop hy hn
    simp [decodeFields_eq_none, Fields.nn_toNat, hop, hy, hn]

/-! ## At most one row for each word but those of CLS and RET -/

/-- Rows that match one word agree where both masks are set. -/
theorem rows_agree_of_match {w m p n q : Word} (hp : w &&& m = p) (hq : w &&& n = q) : p &&& n = q &&& m := by
  rw [← hp, ← hq, BitVec.and_assoc, BitVec.and_assoc, BitVec.and_comm m]

/-- The second half of O34: of any two rows, the parts fixed in both differ, or the pair is one of the two named. -/
theorem rows_overlap {r q : OpcodeRow} (hr : r ∈ opcodeRows) (hq : q ∈ opcodeRows) {w : Word}
    (hwr : w &&& r.mask = r.pattern) (hwq : w &&& q.mask = q.pattern) :
    r = q ∨ (r.mnemonic = "SYS" ∧ q.mnemonic ∈ ["CLS", "RET"]) ∨
      (q.mnemonic = "SYS" ∧ r.mnemonic ∈ ["CLS", "RET"]) := by
  have htable : ∀ r ∈ opcodeRows, ∀ q ∈ opcodeRows, r.pattern &&& q.mask = q.pattern &&& r.mask →
      r = q ∨ (r.mnemonic = "SYS" ∧ q.mnemonic ∈ ["CLS", "RET"]) ∨
        (q.mnemonic = "SYS" ∧ r.mnemonic ∈ ["CLS", "RET"]) := by decide
  exact htable r hr q hq (rows_agree_of_match hwr hwq)

/-- CLS and RET match one word each. -/
theorem word_of_cls_ret_row {r : OpcodeRow} (hr : r ∈ opcodeRows) (hm : r.mnemonic ∈ ["CLS", "RET"]) {w : Word}
    (h : w &&& r.mask = r.pattern) : w = 0x00E0 ∨ w = 0x00EE := by
  have htable : ∀ r ∈ opcodeRows, r.mnemonic ∈ ["CLS", "RET"] →
      r.mask = BitVec.allOnes 16 ∧ (r.pattern = 0x00E0 ∨ r.pattern = 0x00EE) := by decide
  obtain ⟨hmask, hpattern⟩ := htable r hr hm
  rw [hmask, BitVec.and_allOnes] at h
  rwa [h]

/-- R49: a word's first row is the one it matches. CLS and RET are each the first row of their one word, which SYS
matches too; any other word matches no second row. -/
theorem firstRow_mnemonic {r : OpcodeRow} (hr : r ∈ opcodeRows) {w : Word} {i : Instr} (hd : decodeWord w = .ok i)
    (hi : r.mnemonic = i.mnemonic) (hwr : w &&& r.mask = r.pattern) :
    (firstRow w).map OpcodeRow.mnemonic = some i.mnemonic := by
  by_cases hw : w = 0x00E0 ∨ w = 0x00EE
  · obtain rfl | rfl := hw <;> cases hd <;> rfl
  · cases hq : firstRow w with
    | none => simpa [hwr] using List.find?_eq_none.1 hq r hr
    | some q =>
      have hwq : w &&& q.mask = q.pattern := beq_iff_eq.1 (List.find?_some hq :)
      have hqm : q ∈ opcodeRows := List.mem_of_find?_eq_some hq
      obtain rfl | ⟨-, hcls⟩ | ⟨-, hcls⟩ := rows_overlap hr hqm hwr hwq
      · rw [Option.map_some, hi]
      · exact absurd (word_of_cls_ret_row hqm hcls hwq) hw
      · exact absurd (word_of_cls_ret_row hr hcls hwr) hw

theorem firstRow_eq_none {w : Word} (h : decodeFields (fields w) = none) : firstRow w = none :=
  List.find?_eq_none.2 fun _ hr hmatch => decodeFields_ne_none_of_row hr (beq_iff_eq.1 hmatch) h

/-- Settles O34 (R49, R50): a decoded word matches its instruction's row, which is the first; an unrecognized one
matches none. -/
theorem decoderFollowsTheOpcodeMap : Obligations.DecoderFollowsTheOpcodeMap := by
  refine ⟨fun w => ?_, fun r hr q hq w hwr hwq => rows_overlap hr hq hwr hwq⟩
  cases hd : decodeWord w with
  | ok i =>
    obtain ⟨r, hr, hi, hwr⟩ := row_of_decoded hd
    exact (firstRow_mnemonic hr hd hi hwr).symm
  | error e =>
    obtain ⟨hnone, -⟩ := decodeWord_error.1 hd
    rw [firstRow_eq_none hnone, Option.map_none]

end Sys2Proof.Machine
end

section
/-! PROOFS. The invariant (10_state.md R15, R17): it holds at reset, every step keeps it, every run keeps it. -/

namespace Sys2Proof.Machine

/-- Settles O52 (R25): memory lists nothing, `pc` is 0x0200, and no entry is in use. -/
theorem resetMeetsTheInvariant : Obligations.ResetMeetsTheInvariant :=
  ⟨Memory.wf_nil, by decide, fun _ hk => absurd hk (Nat.not_lt_zero _)⟩

theorem toNat_add_two_le (w : Word) : (w + 2).toNat ≤ w.toNat + 2 := by
  rw [BitVec.toNat_add]; exact Nat.mod_le _ _

theorem toNat_add_four_le (w : Word) : (w + 4).toNat ≤ w.toNat + 4 := by
  rw [BitVec.toNat_add]; exact Nat.mod_le _ _

/-- The bound on `pc` after an instruction that was fetched: each way `exec_next_pc` names stays below it. -/
theorem exec_next_pc_le {i : Instr} {s t : State} (hpc : s.pc.toNat < 4095)
    (hstack : ∀ k : Fin 16, k.val < s.sp.val → (s.stack[k]).toNat ≤ 0x0FFE) (h : exec i s = .next t) :
    t.pc.toNat ≤ 0x10FE := by
  obtain e | e | e | hle | ⟨k, hk, e⟩ := exec_next_pc h
  · rw [e]; omega
  · have hle := toNat_add_two_le s.pc
    rw [e]; omega
  · have hle := toNat_add_four_le s.pc
    rw [e]; omega
  · exact hle
  · have hentry := hstack k hk
    have hle := toNat_add_two_le s.stack[k]
    rw [e]; omega

/-- Every entry in use after an instruction that was fetched was in use before, or is the instruction's own address. -/
theorem exec_next_stack_le {i : Instr} {s t : State} (hpc : s.pc.toNat < 4095)
    (hstack : ∀ k : Fin 16, k.val < s.sp.val → (s.stack[k]).toNat ≤ 0x0FFE) (h : exec i s = .next t) (k : Fin 16)
    (hk : k.val < t.sp.val) : (t.stack[k]).toNat ≤ 0x0FFE := by
  obtain ⟨hsame, hsp⟩ | ⟨h16, hpush, hsp⟩ := exec_next_stack h
  · rw [hsame]
    exact hstack k (by omega)
  · by_cases hnew : s.sp.val = k.val
    · simp [hpush, hnew]; omega
    · have hold := hstack k (by omega)
      simpa [hpush, Vector.getElem_set, hnew] using hold

theorem engineStep_keeps_Inv {s t : State} (hs : s.Inv) (h : engineStep s = .next t) : t.Inv := by
  obtain ⟨hmem, -, hstack⟩ := hs
  obtain ⟨k, -, he⟩ | ⟨w, i, hf, -, he⟩ | ⟨w, e, hf, -, he⟩ := engineStep_cases s <;> rw [he] at h
  · cases h
  · obtain ⟨hpc, -⟩ := fetch_ok.1 hf
    exact ⟨exec_next_wf hmem h, exec_next_pc_le hpc hstack h, exec_next_stack_le hpc hstack h⟩
  · obtain ⟨hpc, -⟩ := fetch_ok.1 hf
    obtain rfl := result_next_inj h
    have hle := toNat_add_two_le s.pc
    exact ⟨hmem, by dsimp only; omega, hstack⟩

/-- A reset keeps the old state, or builds one that differs from the reset state in memory alone. -/
theorem State.reinit_keeps_Inv {s : State} (hs : s.Inv) (rom : List Byte) : (s.reinit rom).Inv := by
  obtain hfits | hlong := le_or_gt rom.length Config.romMax
  · obtain ⟨-, hpc, hstack⟩ := resetMeetsTheInvariant
    refine ⟨s.reinit_wf hfits, ?_, ?_⟩ <;> rw [s.reinit_fits hfits]
    · exact hpc
    · exact hstack
  · rwa [s.reinit_too_long hlong]

/-- A host event other than a step. Only a reset writes memory, `pc` or the stack. -/
theorem State.afterEvent_keeps_Inv {s : State} (hs : s.Inv) {e : Event} (he : ∀ rnd, e ≠ .step rnd) :
    (s.afterEvent e).Inv := by
  cases e
  case step rnd => exact absurd rfl (he rnd)
  case init rom =>
    rw [State.afterEvent]
    exact State.reinit_keeps_Inv hs rom
  case tick | setKey | clearRedraw => exact hs

/-- Settles O51, event by event: a step runs the engine, any other event completes. The schedule and the random byte
are no part of the invariant. -/
theorem stepKeepsTheInvariant : Obligations.StepKeepsTheInvariant := by
  intro s t hs h
  obtain ⟨-, hstep⟩ | ⟨e, rest, -, ⟨rnd, -, hstep⟩ | ⟨hne, hstep⟩⟩ := step_cases s <;> rw [hstep] at h
  · exact engineStep_keeps_Inv (s := s.beginStep none) hs h
  · exact engineStep_keeps_Inv (s := (s.withAgenda rest).beginStep (some rnd)) hs h
  · obtain rfl := result_next_inj h
    exact State.afterEvent_keeps_Inv (s := s.withAgenda rest) hs hne

/-- Settles O53 by the induction over runs: the schedule is no part of the invariant, so it holds at the start. -/
theorem everyScheduleKeepsTheInvariant : Obligations.EveryScheduleKeepsTheInvariant := by
  intro schedule n t hrun
  have hstart : (State.reset.withAgenda schedule).Inv := resetMeetsTheInvariant
  exact run_keeps (M := Sys2Proof.core) (P := State.Inv) stepKeepsTheInvariant n _ t hstart hrun

end Sys2Proof.Machine
end

section
/-! PROOFS. The step engine and its faults (spec 40_step_engine.md R61 to R70, 60_exceptions.md R135, R136, R141). -/

namespace Sys2Proof.Machine

/-! ## The step -/

/-- Settles O39 (R61): the step begins with bookkeeping that the fetch does not see, then runs the instruction. -/
theorem stepRunsTheDecodedInstruction : Obligations.StepRunsTheDecodedInstruction := by
  intro s w i hf hd
  refine ⟨fun ha => ?_, fun rnd rest ha => ?_⟩
  · simp only [step, ha]
    exact engineStep_decoded ((fetch_congr rfl rfl).trans hf) hd
  · simp only [step, ha]
    exact engineStep_decoded ((fetch_congr rfl rfl).trans hf) hd

/-- Settles O40 (R62): the fetch by its bound; its word is the two bytes, the first as the high one. -/
theorem fetchReadsTwoBytesBigEndian : Obligations.FetchReadsTwoBytesBigEndian := by
  intro s
  refine ⟨fun hout => ?_, fun hin => ?_⟩
  · have hfault : fetch s = .error .oobMemory := fetch_error.2 ⟨by omega, rfl⟩
    exact ⟨hfault, engineStep_fetch_fault hfault⟩
  · exact ⟨_, fetch_ok.2 ⟨by omega, rfl⟩, bytes_toNat _ _⟩

/-- Settles O43 (R67) by what the engine can answer: an instruction that completes reports OK, UNREC its word. -/
theorem completedStepReportsItsWord : Obligations.CompletedStepReportsItsWord := by
  intro s t h
  obtain ⟨k, -, he⟩ | ⟨w, i, hf, hd, he⟩ | ⟨w, e, hf, hd, he⟩ := engineStep_cases s <;> rw [he] at h
  · cases h
  · obtain ⟨hok, -⟩ := exec_next_common h
    exact ⟨w, hf, fun _ _ => hok, fun herr => by rw [hd] at herr; cases herr⟩
  · obtain rfl := result_next_inj h
    exact ⟨w, hf, fun i hok => (by rw [hd] at hok; cases hok), fun _ => rfl⟩

/-- Settles O44 (R70): the jump writes `pc` with the value it has, so the same word is fetched again. -/
theorem selfJumpIsAFixedPoint : Obligations.SelfJumpIsAFixedPoint := by
  rintro s ⟨w, nnn, hf, hd, htarget⟩
  have hsame : fetch (s.finishAt (absolute nnn)) = fetch s := fetch_congr htarget rfl
  exact ⟨s.finishAt (absolute nnn), engineStep_decoded hf hd, htarget, rfl, keepsAllBut_nil_finishAt s _,
    w, nnn, hsame.trans hf, hd, rfl⟩

/-! ## A step that faults -/

/-- What the block holds after a step that faulted (R66). -/
theorem State.afterStep_of_fault {s : State} {rnd : Option Byte} {kind : Fault}
    (h : engineStep (s.beginStep rnd) = .fault kind) : s.afterStep rnd = s.recordFault kind := by
  simp only [State.afterStep, h]

/-- Settles O46: the recorded outcome is all that differs. -/
theorem faultingStepIsVoid : Obligations.FaultingStepIsVoid := by
  intro s rnd kind h
  rw [State.afterStep_of_fault h]
  exact ⟨rfl, rfl, keepsAllBut_nil_pc_outcome s s.pc (.fault kind)⟩

/-- Whether a step faults is decided by `pc`, memory, the registers, `I` and `sp`. -/
theorem engineStep_fault_congr {s u : State} {kind : Fault} (h : engineStep s = .fault kind) (hpc : u.pc = s.pc)
    (hmem : u.mem = s.mem) (hv : ∀ x, u.getV x = s.getV x) (hi : u.i = s.i) (hsp : u.sp = s.sp) :
    engineStep u = .fault kind := by
  have hfetch : fetch u = fetch s := fetch_congr hpc hmem
  obtain ⟨k, hf, he⟩ | ⟨w, i, hf, hd, he⟩ | ⟨w, e, hf, hd, he⟩ := engineStep_cases s <;> rw [he] at h
  · cases h
    exact engineStep_fetch_fault (hfetch.trans hf)
  · rw [engineStep_decoded (hfetch.trans hf) hd]
    exact exec_fault_congr hv hi hsp h
  · cases h

/-- Where a step faults, an event other than a reset changes nothing that the fault was decided by. -/
theorem State.afterEvent_keeps_fault {s : State} {kind : Fault} (h : engineStep s = .fault kind) {e : Event}
    (he : e.isInit = false) : engineStep (s.afterEvent e) = .fault kind ∧ (s.afterEvent e).pc = s.pc := by
  cases e
  case init rom => cases he
  case step rnd =>
    have hbegun : engineStep (s.beginStep (some rnd)) = .fault kind :=
      engineStep_fault_congr h rfl rfl (fun _ => rfl) rfl rfl
    rw [State.afterEvent, State.afterStep_of_fault hbegun]
    exact ⟨engineStep_fault_congr h rfl rfl (fun _ => rfl) rfl rfl, rfl⟩
  case tick | setKey | clearRedraw => exact ⟨engineStep_fault_congr h rfl rfl (fun _ => rfl) rfl rfl, rfl⟩

/-- Settles O47 by induction over the events: each keeps `pc` and the fault that the next step raises (R141). -/
theorem faultedBlockIsStuck : Obligations.FaultedBlockIsStuck := by
  intro s kind events hevents h
  induction events generalizing s with
  | nil => exact ⟨h, rfl⟩
  | cons e es ih =>
    obtain ⟨hfault, hpc⟩ := State.afterEvent_keeps_fault h (hevents e (by simp))
    obtain ⟨hfault', hpc'⟩ := ih (s.afterEvent e) (fun d hd => hevents d (by simp [hd])) hfault
    exact ⟨hfault', hpc'.trans hpc⟩

/-! ## The fault table (R136) -/

theorem exec_skp_of_none {x : Reg} {s : State} (h : 15 < (s.getV x).toNat) : exec (.skp x) s = .fault .keyIndex := by
  simp only [exec, execSkp, State.keyOperand_none.2 h, raiseFault]

theorem exec_sknp_of_none {x : Reg} {s : State} (h : 15 < (s.getV x).toNat) :
    exec (.sknp x) s = .fault .keyIndex := by
  simp only [exec, execSknp, State.keyOperand_none.2 h, raiseFault]

theorem exec_skp_of_key {x : Reg} {s : State} {k : Fin 16} (h : (s.getV x).toNat = k.val) :
    exec (.skp x) s = completeSkip s (s.keyDown k) := by
  simp only [exec, execSkp, State.keyOperand_some.2 h]

theorem exec_sknp_of_key {x : Reg} {s : State} {k : Fin 16} (h : (s.getV x).toNat = k.val) :
    exec (.sknp x) s = completeSkip s (!s.keyDown k) := by
  simp only [exec, execSknp, State.keyOperand_some.2 h]

theorem exec_fault_of_condition {i : Instr} {s : State} {kind : Fault} (h : FaultCondition i s kind) :
    exec i s = .fault kind := by
  cases i
  case ret => obtain ⟨rfl, hempty⟩ := h; exact exec_ret_of_empty hempty
  case call nnn => obtain ⟨rfl, hfull⟩ := h; exact exec_call_of_full nnn hfull
  case drw x y n => obtain ⟨rfl, hrows, hout⟩ := h; exact accessAtI_out _ hrows (by omega)
  case bcd | stm | ldm => obtain ⟨rfl, hout⟩ := h; exact accessAtI_out _ (by omega) (by omega)
  case skp x => obtain ⟨rfl, hkey⟩ := h; exact exec_skp_of_none hkey
  case sknp x => obtain ⟨rfl, hkey⟩ := h; exact exec_sknp_of_none hkey
  all_goals cases h

theorem exec_next_of_no_condition {i : Instr} {s : State} (h : ∀ kind, ¬ FaultCondition i s kind) :
    ∃ t, exec i s = .next t := by
  cases i
  case ret =>
    have hsp : s.sp.val ≠ 0 := fun h0 => h _ ⟨rfl, h0⟩
    have hlt := s.sp.isLt
    have hk : s.sp.val = (⟨s.sp.val - 1, by omega⟩ : Fin 16).val + 1 := by dsimp only; omega
    exact ⟨_, exec_ret_of_pop (State.pop_at hk)⟩
  case call nnn =>
    have hsp : s.sp.val ≠ 16 := fun h16 => h _ ⟨rfl, h16⟩
    have hlt := s.sp.isLt
    have hk : s.sp.val = (⟨s.sp.val, by omega⟩ : Fin 16).val := rfl
    exact ⟨_, exec_call_of_push (State.push_at s.pc hk)⟩
  case drw x y n =>
    have hin : ¬ (1 ≤ n.val ∧ 4096 ≤ s.i.toNat + n.val - 1) := fun hout => h _ ⟨rfl, hout⟩
    exact ⟨_, accessAtI_in _ (by omega)⟩
  case bcd =>
    have hin : ¬ 4096 ≤ s.i.toNat + 2 := fun hout => h _ ⟨rfl, hout⟩
    exact ⟨_, accessAtI_in _ (by omega)⟩
  case stm x | ldm x =>
    have hin : ¬ 4096 ≤ s.i.toNat + x.val := fun hout => h _ ⟨rfl, hout⟩
    exact ⟨_, accessAtI_in _ (by omega)⟩
  case skp x =>
    have hkey : ¬ 15 < (s.getV x).toNat := fun hout => h _ ⟨rfl, hout⟩
    exact ⟨_, exec_skp_of_key (k := ⟨(s.getV x).toNat, by omega⟩) rfl⟩
  case sknp x =>
    have hkey : ¬ 15 < (s.getV x).toNat := fun hout => h _ ⟨rfl, hout⟩
    exact ⟨_, exec_sknp_of_key (k := ⟨(s.getV x).toNat, by omega⟩) rfl⟩
  case wkey x =>
    cases hk : s.keyPick <;> simp only [exec, execWkey, hk] <;> exact ⟨_, rfl⟩
  all_goals exact ⟨_, rfl⟩

/-- No instruction is refused: each raises a fault or completes. -/
theorem exec_fault_or_next (i : Instr) (s : State) : (∃ kind, exec i s = .fault kind) ∨ ∃ t, exec i s = .next t := by
  by_cases h : ∃ kind, FaultCondition i s kind
  · obtain ⟨kind, hkind⟩ := h
    exact .inl ⟨kind, exec_fault_of_condition hkind⟩
  · exact .inr (exec_next_of_no_condition (not_exists.1 h))

/-- Settles O45 (R136): where the table gives a fault it is raised, and where it gives none the instruction completes.
So a fault that is raised is one the table gives. -/
theorem faultTableIsExact : Obligations.FaultTableIsExact := by
  intro i s
  refine ⟨fun kind => ⟨fun hfault => ?_, exec_fault_of_condition⟩, exec_next_of_no_condition⟩
  by_cases h : ∃ k, FaultCondition i s k
  · obtain ⟨k, hk⟩ := h
    obtain rfl : kind = k := by
      have hboth := hfault.symm.trans (exec_fault_of_condition hk)
      injection hboth
    exact hk
  · obtain ⟨t, hnext⟩ := exec_next_of_no_condition (not_exists.1 h)
    rw [hnext] at hfault
    cases hfault

end Sys2Proof.Machine
end

section
/-! PROOFS. The rest of the ALU and of the index register (spec 42_load_alu.md, 43_index_memory.md section 2). -/

namespace Sys2Proof.Machine

/-! ## Results and flags as numbers (R97 to R100, R111, R112) -/

theorem diff8_toNat (a b : Byte) : (diff8 a b).toNat = (a.toNat + 256 - b.toNat) % 256 := BitVec.toNat_ofNat _ 8

theorem shiftRight1_toNat (a : Byte) : (shiftRight1 a).toNat = a.toNat / 2 := by
  have hlt : a.toNat / 2 < 2 ^ 8 := Nat.lt_of_le_of_lt (Nat.div_le_self _ 2) a.isLt
  exact (BitVec.toNat_ofNat _ 8).trans (Nat.mod_eq_of_lt hlt)

theorem shiftLeft1_toNat (a : Byte) : (shiftLeft1 a).toNat = 2 * a.toNat % 256 := BitVec.toNat_ofNat _ 8

theorem bitOutRight_eq_true {a : Byte} : bitOutRight a = true ↔ a.toNat % 2 = 1 := by
  rw [bitOutRight, BitVec.getLsbD, Nat.testBit_zero, decide_eq_true_iff]

theorem bitOutLeft_eq_true {a : Byte} : bitOutLeft a = true ↔ 128 ≤ a.toNat := by
  have hlt := a.isLt
  rw [bitOutLeft, BitVec.getLsbD, Nat.testBit_eq_decide_div_mod_eq, decide_eq_true_iff]
  omega

/-- The bit that a right shift loses is the remainder. -/
theorem flagByte_bitOutRight_toNat (a : Byte) : (flagByte (bitOutRight a)).toNat = a.toNat % 2 := by
  rw [flagByte_toNat, if_congr bitOutRight_eq_true rfl rfl]
  split <;> omega

/-- The bit that a left shift loses is the quotient by its weight. -/
theorem flagByte_bitOutLeft_toNat (a : Byte) : (flagByte (bitOutLeft a)).toNat = a.toNat / 128 := by
  have hlt := a.isLt
  rw [flagByte_toNat, if_congr bitOutLeft_eq_true rfl rfl]
  split <;> omega

theorem State.indexPlus_toNat (s : State) (x : Reg) :
    (s.indexPlus x).toNat = (s.i.toNat + (s.getV x).toNat) % 65536 := by
  have hlt := (s.getV x).isLt
  simp only [State.indexPlus, BitVec.toNat_add, BitVec.truncate_eq_setWidth, BitVec.toNat_setWidth]
  omega

/-- The whole byte times 5 is below 2^16, so it is not reduced. -/
theorem glyphAddress_toNat (b : Byte) : (glyphAddress b).toNat = 5 * b.toNat := by
  have hlt := b.isLt
  simp only [glyphAddress, Config.glyphBytes, BitVec.toNat_ofNat]
  omega

/-! ## The statements -/

/-- Settles O11 (R93, R94, R95): each is one write of the bitwise result, so VF is left alone unless it is `V[x]`. -/
theorem logicActsBitwise : Obligations.LogicActsBitwise := by
  intro x y s
  obtain ⟨t, hor, hort, hor'⟩ := completeNext_setV_spec s x (s.getV x ||| s.getV y)
  obtain ⟨u, hand, handu, hand'⟩ := completeNext_setV_spec s x (s.getV x &&& s.getV y)
  obtain ⟨v, hxor, hxorv, hxor'⟩ := completeNext_setV_spec s x (s.getV x ^^^ s.getV y)
  refine ⟨decodesTo_alu 0x1 rfl, decodesTo_alu 0x2 rfl, decodesTo_alu 0x3 rfl, ⟨t, hor, fun b => ?_, hor'⟩,
    ⟨u, hand, fun b => ?_, hand'⟩, ⟨v, hxor, fun b => ?_, hxor'⟩⟩
  · rw [hort, BitVec.getLsbD_or]
  · rw [handu, BitVec.getLsbD_and]
  · rw [hxorv, BitVec.getLsbD_xor]

/-- Settles O13 (R97): difference and borrow are computed from the old registers, and VF is written last. -/
theorem subWrapsAndReportsBorrow : Obligations.SubWrapsAndReportsBorrow := by
  intro x y s
  obtain ⟨t, hexec, hflag, hdiff, hrest⟩ := completeNext_setResultFlag_spec s x (diff8 (s.getV x) (s.getV y))
    (subFlag vfSubSense (borrows (s.getV x) (s.getV y)))
  exact ⟨decodesTo_alu 0x5 rfl, t, hexec, hflag, fun hx => by rw [hdiff hx, diff8_toNat], hrest⟩

/-- Settles O14 (R99): SUB with the operands exchanged, the destination not. -/
theorem subnWrapsAndReportsBorrow : Obligations.SubnWrapsAndReportsBorrow := by
  intro x y s
  obtain ⟨t, hexec, hflag, hdiff, hrest⟩ := completeNext_setResultFlag_spec s x (diff8 (s.getV y) (s.getV x))
    (subFlag vfSubSense (borrows (s.getV y) (s.getV x)))
  exact ⟨decodesTo_alu 0x7 rfl, t, hexec, hflag, fun hx => by rw [hdiff hx, diff8_toNat], hrest⟩

/-- Settles O15 (R103): the table of the two senses, and the sense that decision D7 gives the model. -/
theorem borrowFlagIsNotBorrow : Obligations.BorrowFlagIsNotBorrow := ⟨rfl, rfl, rfl, rfl, rfl⟩

/-- Settles O16 (R98): halving drops the bit that VF receives. -/
theorem shrShiftsByOne : Obligations.ShrShiftsByOne := by
  intro x y s
  obtain ⟨t, hexec, hflag, hshift, hrest⟩ := completeNext_setResultFlag_spec s x (shiftRight1 (s.getV x))
    (flagByte (bitOutRight (s.getV x)))
  exact ⟨decodesTo_alu 0x6 rfl, t, hexec, by rw [hflag, flagByte_bitOutRight_toNat],
    fun hx => by rw [hshift hx, shiftRight1_toNat], hrest⟩

/-- Settles O17 (R100): doubling drops the bit that VF receives. -/
theorem shlShiftsByOne : Obligations.ShlShiftsByOne := by
  intro x y s
  obtain ⟨t, hexec, hflag, hshift, hrest⟩ := completeNext_setResultFlag_spec s x (shiftLeft1 (s.getV x))
    (flagByte (bitOutLeft (s.getV x)))
  exact ⟨decodesTo_alu 0xE rfl, t, hexec, by rw [hflag, flagByte_bitOutLeft_toNat],
    fun hx => by rw [hshift hx, shiftLeft1_toNat], hrest⟩

/-- Settles O20 (R111): `I` is the one part written, so no flag is. -/
theorem addixAddsToIndex : Obligations.AddixAddsToIndex := by
  intro x s
  obtain ⟨t, hexec, hindex, hrest⟩ := completeNext_setI_spec s (s.indexPlus x)
  refine ⟨decodesTo_misc 0x1E fun f hx hnn => ?_, t, hexec, by rw [hindex, State.indexPlus_toNat], hrest⟩
  simp [decodeMisc, hx, hnn]

/-- Settles O21 (R112): `I` is the one part written; the product is not reduced. -/
theorem fontMultipliesByFive : Obligations.FontMultipliesByFive := by
  intro x s
  obtain ⟨t, hexec, hindex, hrest⟩ := completeNext_setI_spec s (glyphAddress (s.getV x))
  refine ⟨decodesTo_misc 0x29 fun f hx hnn => ?_, t, hexec, by rw [hindex, glyphAddress_toNat], hrest⟩
  simp [decodeMisc, hx, hnn]

end Sys2Proof.Machine
end

section
/-! PROOFS. Stores and loads at `I` (spec 43_index_memory.md R113 to R116): BCD, STM, LDM. -/

namespace Sys2Proof.Machine

/-! ## Frames -/

/-- A memory write keeps every part but memory. -/
theorem KeepsAllBut.setMem {changed : List Part} {s t : State} (h : KeepsAllBut changed s t) (hmem : .mem ∈ changed)
    (m : Memory) : KeepsAllBut changed s (t.setMem m) := by
  intro p hp
  have hsame : p.same s t := h p hp
  cases p
  case mem => exact absurd hmem hp
  all_goals exact hsame

/-- A load of a range of registers keeps every part but the registers. -/
theorem KeepsAllBut.loadRange {changed : List Part} {s t : State} (h : KeepsAllBut changed s t) (hv : .v ∈ changed)
    (x : Reg) : KeepsAllBut changed s (t.loadRange x) := by
  intro p hp
  have hsame : p.same s t := h p hp
  cases p
  case v => exact absurd hv hp
  all_goals simpa [Part.same] using hsame

/-! ## A store in bounds -/

theorem State.effectiveAddress_eq (s : State) (k : Nat) : s.effectiveAddress k = s.i.toNat + k := rfl

/-- An instruction whose one effect is a store of bytes at `I`, in bounds. -/
theorem completeNext_store_spec {s : State} (hmem : s.mem.wf) {bs : List Byte} (hin : s.i.toNat + bs.length ≤ 4096) :
    ∃ t, completeNext (s.setMem (s.mem.store (s.effectiveAddress 0) bs)) = .next t ∧
      (∀ k, k < bs.length → t.mem.read (s.effectiveAddress k) = bs.getD k 0) ∧
      (∀ a, (∀ k, k < bs.length → a ≠ s.effectiveAddress k) → t.mem.read a = s.mem.read a) ∧
      t.pc = s.pc + 2 ∧ t.outcome = .ok ∧ KeepsAllBut [.mem] s t := by
  have hread := Memory.read_store hmem hin
  refine ⟨_, completeNext_eq _, fun k hk => ?_, fun a ha => ?_, rfl, rfl,
    ((KeepsAllBut.refl _ s).setMem (by decide) _).finishAt _⟩
  · refine (hread _).trans ?_
    rw [if_pos ⟨Nat.le_add_right _ k, Nat.add_lt_add_left hk _⟩, State.effectiveAddress_eq, Nat.add_sub_cancel_left]
  · refine (hread a).trans (if_neg fun ⟨hle, hlt⟩ => ?_)
    exact ha (a - s.i.toNat) (by omega) (Nat.add_sub_of_le hle).symm

/-! ## BCD -/

/-- Settles O22 (R113): a store of three bytes, each digit below 10. -/
theorem bcdStoresThreeDigits : Obligations.BcdStoresThreeDigits := by
  intro x s hmem
  refine ⟨decodesTo_misc 0x33 fun f hx hnn => ?_, s.effectiveAddress_eq, fun hin => ?_, fun hout => ?_⟩
  · simp [decodeMisc, hx, hnn]
  · have hbytes : s.i.toNat + (bcdDigits (s.getV x)).length ≤ 4096 := hin
    obtain ⟨t, hexec, hstored, hkept, hrest⟩ := completeNext_store_spec hmem hbytes
    have hlen : (bcdDigits (s.getV x)).length = 3 := rfl
    have hlt := (s.getV x).isLt
    refine ⟨t, (accessAtI_in _ (.inr hbytes)).trans hexec, ?_, ?_, ?_, hkept, hrest⟩
    · rw [hstored 0 (by omega)]; exact (BitVec.toNat_ofNat _ 8).trans (by omega)
    · rw [hstored 1 (by omega)]; exact (BitVec.toNat_ofNat _ 8).trans (by omega)
    · rw [hstored 2 (by omega)]; exact (BitVec.toNat_ofNat _ 8).trans (by omega)
  · exact accessAtI_out _ (by decide) (by rw [State.effectiveAddress_eq] at hout; omega)

/-! ## STM -/

/-- STM in bounds, for every memory in its canonical form. -/
theorem exec_stm_spec {x : Reg} {s : State} (hmem : s.mem.wf) (hin : s.i.toNat + x.val < 4096) :
    ∃ t, exec (.stm x) s = .next t ∧
      (∀ k : Reg, k ≤ x → t.mem.read (s.effectiveAddress k.val) = s.getV k) ∧
      (∀ a, (∀ k : Reg, k ≤ x → a ≠ s.effectiveAddress k.val) → t.mem.read a = s.mem.read a) ∧
      t.pc = s.pc + 2 ∧ t.outcome = .ok ∧ KeepsAllBut [.mem] s t := by
  have hlen := s.length_regRange x
  obtain ⟨t, hexec, hstored, hkept, hrest⟩ := completeNext_store_spec hmem (bs := s.regRange x) (by omega)
  refine ⟨t, (accessAtI_in _ (.inr (by omega))).trans hexec, fun k hk => ?_, fun a ha => ?_, hrest⟩
  · have hlt : k.val < (s.regRange x).length := by rw [hlen]; exact Nat.lt_succ_of_le hk
    rw [hstored k.val hlt, s.getD_regRange hk]
  · refine hkept a fun k hk => ?_
    have hle : k ≤ x.val := by omega
    exact ha ⟨k, Nat.lt_of_le_of_lt hle x.isLt⟩ hle

/-- An STM that completes was in bounds, so it did what `exec_stm_spec` says. -/
theorem exec_stm_next {x : Reg} {s t : State} (hmem : s.mem.wf) (h : exec (.stm x) s = .next t) :
    s.i.toNat + x.val < 4096 ∧ (∀ k : Reg, k ≤ x → t.mem.read (s.effectiveAddress k.val) = s.getV k) ∧
      t.pc = s.pc + 2 ∧ t.i = s.i := by
  obtain ⟨hbound, -⟩ := accessAtI_next.1 h
  have hin : s.i.toNat + x.val < 4096 := by omega
  obtain ⟨u, hexec, hstored, -, hpc, -, hframe⟩ := exec_stm_spec hmem hin
  obtain rfl := result_next_inj (hexec.symm.trans h)
  exact ⟨hin, hstored, hpc, hframe .i (by decide)⟩

/-- Settles O23 (R114): a store of the register range, or the fault of its last byte. -/
theorem stmStoresTheRange : Obligations.StmStoresTheRange := by
  intro x s hmem
  refine ⟨decodesTo_misc 0x55 fun f hx hnn => ?_, s.effectiveAddress_eq, exec_stm_spec hmem, fun hout => ?_⟩
  · simp [decodeMisc, hx, hnn]
  · exact accessAtI_out _ (by omega) (by rw [State.effectiveAddress_eq] at hout; omega)

/-! ## LDM -/

/-- LDM in bounds, for every memory. -/
theorem exec_ldm_spec {x : Reg} {s : State} (hin : s.i.toNat + x.val < 4096) :
    ∃ t, exec (.ldm x) s = .next t ∧
      (∀ k : Reg, k ≤ x → t.getV k = s.mem.read (s.effectiveAddress k.val)) ∧
      (∀ k : Reg, x < k → t.getV k = s.getV k) ∧
      t.pc = s.pc + 2 ∧ t.outcome = .ok ∧ KeepsAllBut [.v] s t := by
  refine ⟨_, (accessAtI_in _ (.inr (by omega))).trans (completeNext_eq _), fun k hk => ?_, fun k hk => ?_, ?_,
    State.finishAt_outcome _ _, ((KeepsAllBut.refl _ s).loadRange (by decide) x).finishAt _⟩
  · rw [State.finishAt_getV, State.getV_loadRange, if_pos hk, State.effectiveAddress_eq]
  · rw [State.finishAt_getV, State.getV_loadRange, if_neg (not_le.2 hk)]
  · rw [State.finishAt_pc, State.loadRange_pc]

/-- Settles O24 (R115): a load of the register range, or the fault of its last byte. -/
theorem ldmLoadsTheRange : Obligations.LdmLoadsTheRange := by
  intro x s
  refine ⟨decodesTo_misc 0x65 fun f hx hnn => ?_, s.effectiveAddress_eq, exec_ldm_spec, fun hout => ?_⟩
  · simp [decodeMisc, hx, hnn]
  · exact accessAtI_out _ (by omega) (by rw [State.effectiveAddress_eq] at hout; omega)

/-! ## What was stored is read back -/

/-- Settles O25: `I` is the same for both, so each register is loaded from the address it was stored at. -/
theorem ldmReadsBackWhatStmStored : Obligations.LdmReadsBackWhatStmStored := by
  intro x s t u hmem hstm humem hui
  obtain ⟨hin, hstored, -, hti⟩ := exec_stm_next hmem hstm
  have hi : u.i = s.i := hui.trans hti
  obtain ⟨w, hldm, hloaded, -⟩ := exec_ldm_spec (x := x) (s := u) (by rw [hi]; exact hin)
  refine ⟨w, hldm, fun k hk => ?_⟩
  have haddr : u.effectiveAddress k.val = s.effectiveAddress k.val := by simp only [State.effectiveAddress_eq, hi]
  rw [hloaded k hk, humem, haddr, hstored k hk]

/-- Settles O26: the two bytes that the fetch reads are the first two stored. -/
theorem storeIsSeenByTheNextFetch : Obligations.StoreIsSeenByTheNextFetch := by
  intro x s t hmem hx hi hpc hstm
  obtain ⟨-, hstored, htpc, -⟩ := exec_stm_next hmem hstm
  have haddr : s.i.toNat = t.pc.toNat := by rw [hi, htpc]
  have htop : t.pc.toNat < 4095 := by
    have hle := toNat_add_two_le s.pc
    rw [htpc]; omega
  have hhigh : t.mem.read t.pc.toNat = s.getV 0 := by
    rw [← haddr]; exact hstored 0 (Fin.zero_le x)
  have hlow : t.mem.read (t.pc.toNat + 1) = s.getV 1 := by
    rw [← haddr]; exact hstored 1 hx
  refine ⟨_, fetch_ok.2 ⟨htop, rfl⟩, ?_⟩
  rw [bytes_toNat, hhigh, hlow]

end Sys2Proof.Machine
end

section
/-! PROOFS. DRW (spec 44_display.md R121, R122): one draw pixel by pixel, and the same draw twice. -/

namespace Sys2Proof.Machine

/-! ## What R121's loops leave -/

theorem State.mem_spritePixels_iff_covers {s : State} {x y : Reg} {n : Nat} {p : Pixel} :
    p ∈ s.spritePixels x y n ↔ SpriteCovers s x y n p := s.mem_spritePixels x y n p

/-- A sprite has at most 15 rows, so its pixels are distinct and each is flipped once. -/
theorem State.drawn_spec (s : State) (x y : Reg) (n : Fin 16) :
    (∀ p, Framebuffer.get (s.drawn x y n).1 p = (Framebuffer.get s.fb p ^^ decide (p ∈ s.spritePixels x y n))) ∧
      (s.drawn x y n).2 = (s.spritePixels x y n).any (Framebuffer.get s.fb) :=
  drawPixels_spec (s.nodup_spritePixels x y (by omega)) s.fb false

theorem State.drawn_of_covers {s : State} {x y : Reg} {n : Fin 16} {p : Pixel} (h : SpriteCovers s x y n p) :
    Framebuffer.get (s.drawn x y n).1 p = !Framebuffer.get s.fb p := by
  obtain ⟨hpixel, -⟩ := s.drawn_spec x y n
  rw [hpixel, decide_eq_true (State.mem_spritePixels_iff_covers.2 h), Bool.xor_true]

theorem State.drawn_of_not_covers {s : State} {x y : Reg} {n : Fin 16} {p : Pixel} (h : ¬ SpriteCovers s x y n p) :
    Framebuffer.get (s.drawn x y n).1 p = Framebuffer.get s.fb p := by
  obtain ⟨hpixel, -⟩ := s.drawn_spec x y n
  rw [hpixel, decide_eq_false (mt State.mem_spritePixels_iff_covers.1 h), Bool.xor_false]

/-- The hit: some pixel under the sprite was set. -/
theorem State.drawn_hit {s : State} {x y : Reg} {n : Fin 16} :
    (s.drawn x y n).2 = true ↔ ∃ p, SpriteCovers s x y n p ∧ Framebuffer.get s.fb p = true := by
  obtain ⟨-, hhit⟩ := s.drawn_spec x y n
  simp only [hhit, List.any_eq_true, State.mem_spritePixels_iff_covers]

theorem State.flag_of_hit {s : State} {x y : Reg} {n : Fin 16}
    (h : ∃ p, SpriteCovers s x y n p ∧ Framebuffer.get s.fb p = true) : flagByte (s.drawn x y n).2 = 1 := by
  rw [State.drawn_hit.2 h]; rfl

theorem State.flag_of_no_hit {s : State} {x y : Reg} {n : Fin 16}
    (h : ∀ p, SpriteCovers s x y n p → Framebuffer.get s.fb p = false) : flagByte (s.drawn x y n).2 = 0 := by
  have hno : (s.drawn x y n).2 = false := Bool.eq_false_iff.2 fun hhit => by
    obtain ⟨p, hcovers, hset⟩ := State.drawn_hit.1 hhit
    rw [h p hcovers] at hset
    cases hset
  rw [hno]; rfl

/-! ## DRW in bounds -/

theorem exec_drw_spec {x y : Reg} {n : Fin 16} {s : State} (hin : n.val = 0 ∨ s.i.toNat + n.val ≤ 4096) :
    ∃ t, exec (.drw x y n) s = .next t ∧ t.fb = (s.drawn x y n).1 ∧ t.getV 15 = flagByte (s.drawn x y n).2 ∧
      (∀ r, r ≠ 15 → t.getV r = s.getV r) ∧ t.redraw = true ∧ t.pc = s.pc + 2 ∧ t.outcome = .ok ∧
      KeepsAllBut [.v, .fb, .redraw] s t := by
  have hframe : KeepsAllBut [.v, .fb, .redraw] s
      ((s.setScreen (s.drawn x y n).1).setV vf (flagByte (s.drawn x y n).2)) :=
    ((KeepsAllBut.refl _ s).setScreen (by decide) (by decide) _).setV (by decide) _ _
  exact ⟨_, (accessAtI_in _ hin).trans (completeNext_eq _), rfl, State.getV_setV_self _ vf _,
    fun r hr => State.getV_setV_ne _ _ hr, rfl, rfl, rfl, hframe.finishAt _⟩

/-- A DRW that completes was in bounds. -/
theorem exec_drw_in_bounds {x y : Reg} {n : Fin 16} {s t : State} (h : exec (.drw x y n) s = .next t) :
    n.val = 0 ∨ s.i.toNat + n.val ≤ 4096 := by
  obtain ⟨hin, -⟩ := accessAtI_next.1 h
  exact hin

/-- Settles O28 (R121, R122), pixel by pixel; a draw of no rows accesses no byte. -/
theorem drwFlipsThePixelsUnderTheSprite : Obligations.DrwFlipsThePixelsUnderTheSprite := by
  intro x y n s
  refine ⟨decodesTo_xyn (op := 0xD) (n := nibOf n).2 rfl, fun hin => ?_, fun hrows hout => ?_⟩
  · obtain ⟨t, hexec, hfb, hflag, hrest⟩ := exec_drw_spec (x := x) (y := y) hin
    refine ⟨t, hexec, fun p hp => ?_, fun p hp => ?_, fun hhit => ?_, fun hno => ?_, hrest⟩
    · rw [hfb, State.drawn_of_covers hp]
    · rw [hfb, State.drawn_of_not_covers hp]
    · rw [hflag, State.flag_of_hit hhit]
    · rw [hflag, State.flag_of_no_hit hno]
  · exact accessAtI_out _ hrows (by omega)

/-! ## The same draw twice -/

/-- The sprite's pixels depend on `I`, the sprite's bytes and the two coordinates. -/
theorem SpriteCovers_congr {s t : State} {x y : Reg} (hi : t.i = s.i) (hmem : ∀ a, t.mem.read a = s.mem.read a)
    (hx : t.getV x = s.getV x) (hy : t.getV y = s.getV y) (n : Nat) (p : Pixel) :
    SpriteCovers t x y n p ↔ SpriteCovers s x y n p := by
  simp only [SpriteCovers, hi, hmem, hx, hy]

/-- Settles O29 (vector S6): the second draw covers the pixels that the first one flipped, and flips each back. -/
theorem drawingTwiceRestoresTheScreen : Obligations.DrawingTwiceRestoresTheScreen := by
  intro x y n s t h hx hy
  have hin := exec_drw_in_bounds h
  obtain ⟨t', hexec, hfb, -, -, -, -, -, hframe⟩ := exec_drw_spec (x := x) (y := y) hin
  obtain rfl := result_next_inj (hexec.symm.trans h)
  have hi : t.i = s.i := hframe .i (by decide)
  have hsame := SpriteCovers_congr hi (hframe .mem (by decide)) hx hy n.val
  obtain ⟨u, hexec', hfb', hflag', -⟩ := exec_drw_spec (x := x) (y := y) (s := t) (by rw [hi]; exact hin)
  refine ⟨u, hexec', Framebuffer.ext_get fun p => ?_, fun hhit => ?_, fun hno => ?_⟩
  · rw [hfb']
    by_cases hp : SpriteCovers s x y n p
    · rw [State.drawn_of_covers ((hsame p).2 hp), hfb, State.drawn_of_covers hp, Bool.not_not]
    · rw [State.drawn_of_not_covers (mt (hsame p).1 hp), hfb, State.drawn_of_not_covers hp]
  · rw [hflag']
    exact State.flag_of_hit (by simpa only [hsame] using hhit)
  · rw [hflag']
    exact State.flag_of_no_hit (by simpa only [hsame] using hno)

end Sys2Proof.Machine
end

section
/-! PROOFS. Key instructions (spec 45_keys_timers.md R125 to R127): SKP, SKNP, WKEY. -/

namespace Sys2Proof.Machine

/-- The word `Exnn`, its selector `nn` added to the constant part. -/
theorem decodesTo_key {x : Reg} {i : Instr} (nn : Byte)
    (hd : ∀ f : Fields, regOf f.x = x → f.nn = nn → decodeKey f = some i) :
    DecodesTo (0xE000 + nn.toNat + 256 * x.val) i := by
  rw [Nat.add_right_comm]
  exact decodesTo_xnn (op := 0xE) fun f hop hx hnn => by simp [decodeFields, hop, hd f hx hnn]

theorem exec_wkey_of_none {x : Reg} {s : State} (h : s.keyPick = none) :
    exec (.wkey x) s = .next (s.finishAt s.pc) := by
  simp only [exec, execWkey, h, completeAt_eq]

theorem exec_wkey_of_key {x : Reg} {s : State} {k : Fin 16} (h : s.keyPick = some k) :
    exec (.wkey x) s = completeNext (s.setV x (BitVec.ofNat 8 k.val)) := by
  simp only [exec, execWkey, h]

/-- A key index fits a byte. -/
theorem keyByte_toNat (k : Fin 16) : (BitVec.ofNat 8 k.val).toNat = k.val :=
  (BitVec.toNat_ofNat _ 8).trans (Nat.mod_eq_of_lt (by omega))

/-- Settles O30 (R125, R126): with an index both are one skip, on the key and on its complement; without one both
fault. -/
theorem keySkipsTestOneKey : Obligations.KeySkipsTestOneKey := by
  intro x s
  refine ⟨decodesTo_key 0x9E fun f hx hnn => ?_, decodesTo_key 0xA1 fun f hx hnn => ?_, fun k hk => ⟨?_, ?_⟩,
    fun hout => ⟨exec_skp_of_none hout, exec_sknp_of_none hout⟩⟩
  · simp [decodeKey, hx, hnn]
  · simp [decodeKey, hx, hnn]
  · rw [exec_skp_of_key hk]
    exact completeSkip_spec s Iff.rfl
  · rw [exec_sknp_of_key hk]
    exact completeSkip_spec s (by rw [Bool.not_eq_true'])

/-- Settles O31 (R127) by what `KEY_PICK` answers: nothing while every key is up, else the lowest key down. -/
theorem wkeyWaitsForAKey : Obligations.WkeyWaitsForAKey := by
  intro x s
  refine ⟨decodesTo_misc 0x0A fun f hx hnn => ?_, fun hup => ?_, fun k hdown hlowest => ?_⟩
  · simp [decodeMisc, hx, hnn]
  · exact ⟨_, exec_wkey_of_none (State.keyPick_none.2 hup), rfl, rfl, keepsAllBut_nil_finishAt s _⟩
  · rw [exec_wkey_of_key (State.keyPick_some.2 ⟨hdown, hlowest⟩)]
    obtain ⟨t, hexec, hindex, hrest⟩ := completeNext_setV_spec s x (BitVec.ofNat 8 k.val)
    exact ⟨t, hexec, by rw [hindex, keyByte_toNat], hrest⟩

end Sys2Proof.Machine
end

section
/-! PROOFS. What an instruction that completes did, by its class: `pc`, VF, and the parts it may change (spec
10_state.md, 40_step_engine.md R65). -/

namespace Sys2Proof.Machine

/-! ## Inversions of the instructions that may fault or wait -/

theorem exec_ret_next {s t : State} (h : exec .ret s = .next t) :
    ∃ w u, s.pop = some (w, u) ∧ t = u.finishAt (w + 2) := by
  cases hp : s.pop with
  | none => rw [exec_ret_of_empty (State.pop_none.1 hp)] at h; cases h
  | some p =>
    rw [exec_ret_of_pop hp] at h
    exact ⟨p.1, p.2, rfl, result_next_inj h⟩

theorem exec_call_next {nnn : Addr} {s t : State} (h : exec (.call nnn) s = .next t) :
    ∃ u, s.push s.pc = some u ∧ t = u.finishAt (absolute nnn) := by
  cases hp : s.push s.pc with
  | none => rw [exec_call_of_full nnn (State.push_none.1 hp)] at h; cases h
  | some u =>
    rw [exec_call_of_push hp] at h
    exact ⟨u, rfl, result_next_inj h⟩

/-- SKP and SKNP, where they complete, move `pc` alone. -/
theorem exec_key_skip_next {x : Reg} {s t : State} (h : exec (.skp x) s = .next t ∨ exec (.sknp x) s = .next t) :
    ∃ c : Bool, t = s.finishAt (if c then s.pc + 4 else s.pc + 2) := by
  cases hk : s.keyOperand x with
  | none =>
    have hout := State.keyOperand_none.1 hk
    rw [exec_skp_of_none hout, exec_sknp_of_none hout] at h
    obtain h | h := h <;> cases h
  | some k =>
    have hkey := State.keyOperand_some.1 hk
    rw [exec_skp_of_key hkey, exec_sknp_of_key hkey] at h
    obtain h | h := h <;> exact ⟨_, result_next_inj h⟩

theorem exec_wkey_next {x : Reg} {s t : State} (h : exec (.wkey x) s = .next t) :
    (s.keyPick = none ∧ t = s.finishAt s.pc) ∨
      ∃ k, s.keyPick = some k ∧ t = (s.setV x (BitVec.ofNat 8 k.val)).finishAt (s.pc + 2) := by
  cases hk : s.keyPick with
  | none =>
    rw [exec_wkey_of_none hk] at h
    exact .inl ⟨rfl, result_next_inj h⟩
  | some k =>
    rw [exec_wkey_of_key hk] at h
    exact .inr ⟨k, rfl, result_next_inj h⟩

theorem exec_drw_next {x y : Reg} {n : Fin 16} {s t : State} (h : exec (.drw x y n) s = .next t) :
    t = ((s.setScreen (s.drawn x y n).1).setV vf (flagByte (s.drawn x y n).2)).finishAt (s.pc + 2) := by
  obtain ⟨-, hn⟩ := accessAtI_next.1 h
  exact result_next_inj hn

/-- BCD and STM, where they complete, write memory and advance. -/
theorem exec_store_next {x : Reg} {s t : State} (h : exec (.bcd x) s = .next t ∨ exec (.stm x) s = .next t) :
    ∃ m, t = (s.setMem m).finishAt (s.pc + 2) := by
  obtain h | h := h
  · obtain ⟨-, hn⟩ := accessAtI_next.1 h
    exact ⟨_, result_next_inj hn⟩
  · obtain ⟨-, hn⟩ := accessAtI_next.1 h
    exact ⟨_, result_next_inj hn⟩

theorem exec_ldm_next {x : Reg} {s t : State} (h : exec (.ldm x) s = .next t) :
    t = (s.loadRange x).finishAt (s.pc + 2) := by
  obtain ⟨-, hn⟩ := accessAtI_next.1 h
  rw [completeNext_eq, State.loadRange_pc] at hn
  exact result_next_inj hn

/-! ## `pc` by class (R65) -/

theorem exec_next_pc_sequential {i : Instr} {s t : State} (h : exec i s = .next t)
    (hm : i.mnemonic ∈ ["CLS", "SYS", "LDI", "ADDI", "MOV", "OR", "AND", "XOR", "ADD", "SUB", "SHR", "SUBN", "SHL",
      "LDIX", "RND", "DRW", "RDDT", "WRDT", "WRST", "ADDIX", "FONT", "BCD", "STM", "LDM"]) : t.pc = s.pc + 2 := by
  cases i
  case ret | jp | call | sei | snei | ser | sner | jpv0 | skp | sknp | wkey => simp [Instr.mnemonic] at hm
  case drw => rw [exec_drw_next h, State.finishAt_pc]
  case bcd => obtain ⟨m, rfl⟩ := exec_store_next (.inl h); rfl
  case stm => obtain ⟨m, rfl⟩ := exec_store_next (.inr h); rfl
  case ldm => rw [exec_ldm_next h, State.finishAt_pc]
  all_goals
    obtain rfl := result_next_inj h
    rfl

theorem finishAt_skip_pc (s : State) (c : Bool) :
    (s.finishAt (if c then s.pc + 4 else s.pc + 2)).pc = s.pc + 4 ∨
      (s.finishAt (if c then s.pc + 4 else s.pc + 2)).pc = s.pc + 2 := by
  cases c
  · exact .inr rfl
  · exact .inl rfl

theorem exec_next_pc_skip {i : Instr} {s t : State} (h : exec i s = .next t)
    (hm : i.mnemonic ∈ ["SEI", "SNEI", "SER", "SNER", "SKP", "SKNP"]) : t.pc = s.pc + 4 ∨ t.pc = s.pc + 2 := by
  cases i
  case sei | snei | ser | sner => obtain rfl := result_next_inj h; exact finishAt_skip_pc s _
  case skp => obtain ⟨c, rfl⟩ := exec_key_skip_next (.inl h); exact finishAt_skip_pc s c
  case sknp => obtain ⟨c, rfl⟩ := exec_key_skip_next (.inr h); exact finishAt_skip_pc s c
  all_goals simp [Instr.mnemonic] at hm

/-- Settles O42 (R65), class by class; RET and WKEY by what the stack and the keys answer. -/
theorem pcMovesByClass : Obligations.PcMovesByClass := by
  intro i s t h
  refine ⟨exec_next_pc_sequential h, exec_next_pc_skip h, ?_, ?_, ?_, ?_⟩
  · rintro nnn (rfl | rfl)
    · obtain rfl := result_next_inj h
      exact absolute_toNat nnn
    · obtain ⟨u, -, rfl⟩ := exec_call_next h
      exact absolute_toNat nnn
  · rintro nnn rfl
    obtain rfl := result_next_inj h
    exact s.indexedTarget_toNat nnn
  · rintro rfl k hk
    rw [exec_ret_of_pop (State.pop_at hk)] at h
    obtain rfl := result_next_inj h
    rfl
  · rintro x rfl
    refine ⟨fun hup => ?_, fun ⟨k, hdown⟩ => ?_⟩
    · rw [exec_wkey_of_none (State.keyPick_none.2 hup)] at h
      obtain rfl := result_next_inj h
      rfl
    · obtain ⟨hnone, -⟩ | ⟨k', -, rfl⟩ := exec_wkey_next h
      · rw [State.keyPick_none.1 hnone k] at hdown
        cases hdown
      · rfl

/-! ## Frames -/

/-- The parts that an instruction may change, beside `pc` and the outcome. -/
def mayWrite : Instr → List Part
  | .cls => [.fb, .redraw]
  | .drw _ _ _ => [.v, .fb, .redraw]
  | .ret => [.sp]
  | .call _ => [.stack, .sp]
  | .ldix _ | .addix _ | .font _ => [.i]
  | .rnd _ _ => [.v, .rndCount]
  | .ldi _ _ | .addi _ _ | .mov _ _ | .or _ _ | .and _ _ | .xor _ _ | .add _ _ | .sub _ _ => [.v]
  | .shr _ _ | .subn _ _ | .shl _ _ | .rddt _ | .wkey _ | .ldm _ => [.v]
  | .wrdt _ => [.dt]
  | .wrst _ => [.st]
  | .bcd _ | .stm _ => [.mem]
  | .sys _ | .jp _ | .jpv0 _ | .sei _ _ | .snei _ _ | .ser _ _ | .sner _ _ | .skp _ | .sknp _ => []

/-- The frame of every instruction. -/
theorem exec_next_frame {i : Instr} {s t : State} (h : exec i s = .next t) : KeepsAllBut (mayWrite i) s t := by
  have hrefl (changed : List Part) : KeepsAllBut changed s s := KeepsAllBut.refl changed s
  cases i <;> simp only [mayWrite]
  case ret =>
    obtain ⟨w, u, hpop, rfl⟩ := exec_ret_next h
    exact (State.pop_keepsAllBut hpop).finishAt _
  case call =>
    obtain ⟨u, hpush, rfl⟩ := exec_call_next h
    exact (State.push_keepsAllBut hpush).finishAt _
  case skp => obtain ⟨c, rfl⟩ := exec_key_skip_next (.inl h); exact keepsAllBut_nil_finishAt s _
  case sknp => obtain ⟨c, rfl⟩ := exec_key_skip_next (.inr h); exact keepsAllBut_nil_finishAt s _
  case bcd => obtain ⟨m, rfl⟩ := exec_store_next (.inl h); exact ((hrefl _).setMem (by decide) m).finishAt _
  case stm => obtain ⟨m, rfl⟩ := exec_store_next (.inr h); exact ((hrefl _).setMem (by decide) m).finishAt _
  case ldm x => rw [exec_ldm_next h]; exact ((hrefl _).loadRange (by decide) x).finishAt _
  case drw =>
    rw [exec_drw_next h]
    exact (((hrefl _).setScreen (by decide) (by decide) _).setV (by decide) _ _).finishAt _
  case wkey =>
    obtain ⟨-, rfl⟩ | ⟨k, -, rfl⟩ := exec_wkey_next h
    · exact (hrefl _).finishAt _
    · exact ((hrefl _).setV (by decide) _ _).finishAt _
  all_goals obtain rfl := result_next_inj h
  case cls => exact ((hrefl _).setScreen (by decide) (by decide) _).finishAt _
  case ldix | addix | font => exact ((hrefl _).setI (by decide) _).finishAt _
  case rnd => exact (((hrefl _).setV (by decide) _ _).countRnd (by decide)).finishAt _
  case wrdt => exact ((hrefl _).setDT (by decide) _).finishAt _
  case wrst => exact ((hrefl _).setST (by decide) _).finishAt _
  case add | sub | shr | subn | shl => exact (((hrefl _).setV (by decide) _ _).setV (by decide) _ _).finishAt _
  case ldi | addi | mov | or | and | xor | rddt => exact ((hrefl _).setV (by decide) _ _).finishAt _
  all_goals exact keepsAllBut_nil_finishAt s _

/-- No instruction clears `redraw`: the two that may write it set it (R19). -/
theorem exec_next_redraw {i : Instr} {s t : State} (h : exec i s = .next t) (hs : s.redraw = true) :
    t.redraw = true := by
  by_cases hw : Part.redraw ∈ mayWrite i
  · cases i
    case cls => obtain rfl := result_next_inj h; rfl
    case drw => rw [exec_drw_next h]; rfl
    all_goals simp [mayWrite] at hw
  · exact (exec_next_frame h .redraw hw).trans hs

/-- Which instructions may write a part, by their mnemonics: the table of `mayWrite` read part by part. -/
theorem mayWrite_iff (i : Instr) :
    (.i ∈ mayWrite i ↔ i.mnemonic ∈ ["LDIX", "ADDIX", "FONT"]) ∧ (.stack ∈ mayWrite i ↔ i.mnemonic = "CALL") ∧
    (.sp ∈ mayWrite i ↔ i.mnemonic ∈ ["CALL", "RET"]) ∧ (.dt ∈ mayWrite i ↔ i.mnemonic = "WRDT") ∧
    (.st ∈ mayWrite i ↔ i.mnemonic = "WRST") ∧ (.fb ∈ mayWrite i ↔ i.mnemonic ∈ ["CLS", "DRW"]) ∧
    (.redraw ∈ mayWrite i ↔ i.mnemonic ∈ ["CLS", "DRW"]) ∧ (.mem ∈ mayWrite i ↔ i.mnemonic ∈ ["BCD", "STM"]) ∧
    .key ∉ mayWrite i ∧ .soundZero ∉ mayWrite i := by
  cases i <;> simp [mayWrite, Instr.mnemonic]

/-- Settles O49: each clause is the frame of the instruction at one part. -/
theorem eachPartHasItsWriters : Obligations.EachPartHasItsWriters := by
  intro i s t h
  have hframe := exec_next_frame h
  obtain ⟨hi, hstack, hsp, hdt, hst, hfb, hredraw, hmem, hkey, hsound⟩ := mayWrite_iff i
  exact ⟨fun hm => hframe .i (mt hi.1 hm), fun hm => hframe .stack (mt hstack.1 hm),
    fun hm => hframe .sp (mt hsp.1 hm), fun hm => hframe .dt (mt hdt.1 hm), fun hm => hframe .st (mt hst.1 hm),
    fun hm => ⟨hframe .fb (mt hfb.1 hm), hframe .redraw (mt hredraw.1 hm)⟩, fun hm => hframe .mem (mt hmem.1 hm),
    hframe .key hkey, hframe .soundZero hsound, exec_next_redraw h⟩


/-! ## VF (R11, R12) -/

/-- A flag written last is what VF holds. -/
theorem State.getV_vf_of_flag (s : State) (b : Bool) :
    (s.setV vf (flagByte b)).getV 15 = 0 ∨ (s.setV vf (flagByte b)).getV 15 = 1 := by
  have hvf : (s.setV vf (flagByte b)).getV 15 = flagByte b := s.getV_setV_self vf _
  rw [hvf]
  cases b
  · exact .inl rfl
  · exact .inr rfl

theorem exec_next_vf_flag {i : Instr} {s t : State} (h : exec i s = .next t)
    (hm : i.mnemonic ∈ ["ADD", "SUB", "SHR", "SUBN", "SHL", "DRW"]) : t.getV 15 = 0 ∨ t.getV 15 = 1 := by
  cases i
  case add | sub | shr | subn | shl =>
    obtain rfl := result_next_inj h
    exact State.getV_vf_of_flag _ _
  case drw =>
    rw [exec_drw_next h]
    exact State.getV_vf_of_flag _ _
  all_goals simp [Instr.mnemonic] at hm

theorem exec_next_vf_other {i : Instr} {s t : State} (h : exec i s = .next t)
    (hm : i.mnemonic ∉ ["ADD", "SUB", "SHR", "SUBN", "SHL", "DRW"]) (hx : writtenThroughX i ≠ some 15) :
    t.getV 15 = s.getV 15 := by
  have hne {x : Reg} (hw : writtenThroughX i = some x) : 15 ≠ x := fun e => hx (e ▸ hw)
  by_cases hw : Part.v ∈ mayWrite i
  · cases i
    case add | sub | shr | subn | shl | drw => simp [Instr.mnemonic] at hm
    case wkey x =>
      obtain ⟨-, rfl⟩ | ⟨k, -, rfl⟩ := exec_wkey_next h
      · rfl
      · exact s.getV_setV_ne _ (hne rfl)
    case ldm x =>
      have hlt : ¬ 15 ≤ x := fun hle => hne rfl (Fin.le_antisymm hle (Fin.le_last x))
      rw [exec_ldm_next h, State.finishAt_getV, State.getV_loadRange, if_neg hlt]
    case ldi | addi | mov | or | and | xor | rnd | rddt =>
      obtain rfl := result_next_inj h
      exact s.getV_setV_ne _ (hne rfl)
    all_goals simp [mayWrite] at hw
  · exact exec_next_frame h .v hw 15

/-- Settles O48 (R11): the six write a flag byte into VF last; any other reaches VF only through its own `x`. -/
theorem onlySixOperationsWriteVf : Obligations.OnlySixOperationsWriteVf :=
  fun _ _ _ h => ⟨exec_next_vf_flag h, exec_next_vf_other h⟩

end Sys2Proof.Machine
end

section
/-! PROOFS. Nested calls (spec 41_control_flow.md R75, R78, vectors S2, S3). -/

namespace Sys2Proof.Machine

theorem KeepsAllBut.trans {changed : List Part} {s t u : State} (h1 : KeepsAllBut changed s t)
    (h2 : KeepsAllBut changed t u) : KeepsAllBut changed s u := by
  intro p hp
  have hst : p.same s t := h1 p hp
  have htu : p.same t u := h2 p hp
  cases p
  case v | fb | key | mem => exact fun a => (htu a).trans (hst a)
  all_goals exact htu.trans hst

theorem KeepsAllBut.mono {changed more : List Part} {s t : State} (h : KeepsAllBut changed s t)
    (hsub : changed ⊆ more) : KeepsAllBut more s t :=
  fun p hp => h p fun hmem => hp (hsub hmem)

theorem execAll_cons_of_next {i : Instr} {is : List Instr} {s t : State} (h : exec i s = .next t) :
    execAll (i :: is) s = execAll is t := by
  simp only [execAll, h]

theorem execAll_append_of_next {is js : List Instr} {s t : State} (h : execAll is s = .next t) :
    execAll (is ++ js) s = execAll js t := by
  induction is generalizing s with
  | nil => cases h; rfl
  | cons i is ih =>
    obtain ⟨kind, hi⟩ | ⟨u, hi⟩ := exec_fault_or_next i s
    · simp only [execAll, hi] at h
      cases h
    · rw [execAll_cons_of_next hi] at h
      rw [List.cons_append, execAll_cons_of_next hi, ih h]

/-- The calls of a list of targets, then as many returns. -/
def callsAndReturns (targets : List Addr) : List Instr :=
  targets.map Instr.call ++ List.replicate targets.length Instr.ret

/-- The first call and the last return enclose the calls and returns of the other targets. -/
theorem callsAndReturns_cons (nnn : Addr) (targets : List Addr) :
    callsAndReturns (nnn :: targets) = .call nnn :: (callsAndReturns targets ++ [.ret]) := by
  simp [callsAndReturns, List.replicate_succ']

/-- What a block of calls and returns leaves, the empty block included: the entries in use as they were, and `pc`
after the first call where there is one. -/
theorem execAll_callsAndReturns (targets : List Addr) {s : State} (h : s.sp.val + targets.length ≤ 16) :
    ∃ t, execAll (callsAndReturns targets) s = .next t ∧ (targets ≠ [] → t.pc = s.pc + 2) ∧ t.sp = s.sp ∧
      (∀ k : Fin 16, k.val < s.sp.val → t.stack[k] = s.stack[k]) ∧ KeepsAllBut [.stack, .sp] s t := by
  induction targets generalizing s with
  | nil => exact ⟨s, rfl, fun hne => absurd rfl hne, rfl, fun _ _ => rfl, KeepsAllBut.refl _ s⟩
  | cons nnn targets ih =>
    rw [List.length_cons] at h
    obtain ⟨k, hk⟩ : ∃ k : Fin 16, s.sp.val = k.val := ⟨⟨s.sp.val, by omega⟩, rfl⟩
    obtain ⟨-, hroom, -, -⟩ := callPushesItsOwnAddress nnn s
    obtain ⟨u, hcall, hentry, hothers, husp, -, -, huframe⟩ := hroom k hk
    obtain ⟨v, hinner, -, hvsp, hvstack, hvframe⟩ := ih (s := u) (by omega)
    obtain ⟨-, hreturns, -, -⟩ := retResumesAfterTheCall v
    obtain ⟨t, hret, htsp, htpc, -, htframe⟩ := hreturns k (by rw [hvsp, husp, hk])
    have htstack : t.stack = v.stack := htframe .stack (by decide)
    refine ⟨t, ?_, fun _ => ?_, Fin.ext (htsp.trans hk.symm), fun j hj => ?_,
      (huframe.trans hvframe).trans (htframe.mono (by decide))⟩
    · rw [callsAndReturns_cons, execAll_cons_of_next hcall, execAll_append_of_next hinner, execAll_cons_of_next hret,
        execAll]
    · have hpc : v.stack[k] = s.pc := (hvstack k (by omega)).trans hentry
      apply BitVec.eq_of_toNat_eq
      rw [htpc, hpc, BitVec.toNat_add]
      rfl
    · rw [htstack, hvstack j (by omega)]
      exact hothers j fun hjk => by rw [hk, hjk] at hj; exact absurd hj (lt_irrefl _)

/-- One call more than the stack has room for. -/
theorem execAll_calls_overflow (targets : List Addr) {s : State} (h : 16 < s.sp.val + targets.length) :
    execAll (targets.map Instr.call) s = .fault .stackOverflow := by
  have hsp := s.sp.isLt
  induction targets generalizing s with
  | nil => rw [List.length_nil] at h; omega
  | cons nnn targets ih =>
    rw [List.length_cons] at h
    by_cases hfull : s.sp.val = 16
    · simp only [List.map_cons, execAll, exec_call_of_full nnn hfull]
    · obtain ⟨k, hk⟩ : ∃ k : Fin 16, s.sp.val = k.val := ⟨⟨s.sp.val, by omega⟩, rfl⟩
      obtain ⟨-, hroom, -, -⟩ := callPushesItsOwnAddress nnn s
      obtain ⟨u, hcall, -, -, husp, -⟩ := hroom k hk
      rw [List.map_cons, execAll_cons_of_next hcall]
      exact ih (by omega) u.sp.isLt

/-- Settles O50 by induction over the targets: the inner calls and returns leave the first call's entry in place. -/
theorem nestedCallsReturn : Obligations.NestedCallsReturn := by
  intro targets s hne
  refine ⟨fun hroom => ?_, execAll_calls_overflow targets⟩
  obtain ⟨t, hrun, hpc, hsp, hstack, hframe⟩ := execAll_callsAndReturns targets hroom
  refine ⟨t, hrun, hpc hne, hsp, hstack, fun p hp => ?_⟩
  by_cases hpsp : p = .sp
  · rw [hpsp]; exact hsp
  · exact hframe p fun hmem => by simp [hpsp] at hmem hp; exact hp hmem

end Sys2Proof.Machine
end

section
/-! PROOFS. Resets and host events (spec 70_reset_and_hazards.md R160 to R162, 60_exceptions.md R148 to R152). -/

namespace Sys2Proof.Machine

/-! ## What a reset that succeeds leaves (R25, R160) -/

/-- Memory as a reset builds it: all 0, then the font at 0, then the program image at 0x200. -/
def initialMemory (font rom : List Byte) : Memory := (Memory.zeroed.store 0 font).store Config.progBase rom

/-- The presumed font (log 4) fits below the program image. -/
theorem length_fontTable_le : fontTable.length ≤ 0x200 := by decide

theorem length_nil_le_romMax : ([] : List Byte).length ≤ 3584 := Nat.zero_le 3584

theorem initWith_of_fits (font : List Byte) {rom : List Byte} (h : rom.length ≤ 3584) :
    initWith font rom = some (State.reset.setMem (initialMemory font rom)) := initWith_some.2 ⟨h, rfl⟩

theorem read_initialMemory {font rom : List Byte} (hf : font.length ≤ 0x200) (hr : rom.length ≤ 3584) (a : Nat) :
    (initialMemory font rom).read a =
      if 0x200 ≤ a ∧ a < 0x200 + rom.length then rom.getD (a - 0x200) 0
      else if a < font.length then font.getD a 0 else 0 := by
  have hfont : 0 + font.length ≤ Config.memSize := by simp only [Config.memSize]; omega
  have hrom : Config.progBase + rom.length ≤ Config.memSize := by simp only [Config.memSize, Config.progBase]; omega
  rw [initialMemory, Memory.read_store (Memory.wf_store Memory.wf_zeroed hfont) hrom,
    Memory.read_store Memory.wf_zeroed hfont, Memory.read_zeroed]
  simp [Config.progBase]

/-- The reset state with the built memory has every value of R25. -/
theorem holdsResetValues_initial {font rom : List Byte} (hf : font.length ≤ 0x200) (hr : rom.length ≤ 3584) :
    HoldsResetValues font rom (State.reset.setMem (initialMemory font rom)) := by
  have hread := read_initialMemory hf hr
  refine ⟨fun r => ?_, rfl, rfl, fun k => ?_, rfl, rfl, rfl, Framebuffer.get_clear, rfl, fun k => ?_, rfl, rfl,
    fun a ha => ?_, fun k hk => ?_, fun a _ hfont hrom => ?_⟩
  · simp [State.getV, State.reset]
  · simp [State.reset]
  · simp [State.keyDown, State.reset]
  · rw [State.setMem_mem, hread, if_neg (by omega), if_pos ha]
  · rw [State.setMem_mem, hread, if_pos (by omega), Nat.add_sub_cancel_left]
  · rw [State.setMem_mem, hread, if_neg (by omega), if_neg (by omega)]

/-- The schedule and the draws are no part of R25's values. -/
theorem HoldsResetValues.keepSchedule {font rom : List Byte} {t : State} (h : HoldsResetValues font rom t)
    (old : State) : HoldsResetValues font rom (t.keepSchedule old) :=
  ⟨h.v, h.i, h.pc, h.stack, h.sp, h.dt, h.st, h.fb, h.redraw, h.key, h.outcome, h.soundZero, h.memFont, h.memRom,
    h.memRest⟩

/-- A reset of a block that holds a state (R161): the values of R25, whatever it held. -/
theorem State.reinit_spec (s : State) {rom : List Byte} (h : rom.length ≤ 3584) :
    HoldsResetValues fontTable rom (s.reinit rom) ∧ (s.reinit rom).mem.wf ∧ (s.reinit rom).agenda = s.agenda ∧
      (s.reinit rom).rnd = s.rnd ∧ (s.reinit rom).rndCount = s.rndCount := by
  refine ⟨?_, s.reinit_wf h, ?_⟩ <;> rw [s.reinit_fits h]
  · exact (holdsResetValues_initial length_fontTable_le h).keepSchedule s
  · exact ⟨rfl, rfl, rfl⟩

/-- Settles O54 (R25, R160): memory is read through the two stores, every other field is the reset state's. -/
theorem resetBuildsTheStartState : Obligations.ResetBuildsTheStartState := by
  have hinit {font rom : List Byte} (hf : font.length ≤ 0x200) (hr : rom.length ≤ 3584) :
      ∃ t, initWith font rom = some t ∧ HoldsResetValues font rom t ∧ t.mem.wf :=
    ⟨_, initWith_of_fits font hr, holdsResetValues_initial hf hr, initWith_wf hf (initWith_of_fits font hr)⟩
  refine ⟨fun font rom hf hr => hinit hf hr, fun rom hr => ?_⟩
  have hblock : initBlock rom = some _ := initWith_of_fits fontTable hr
  refine ⟨hinit length_fontTable_le hr, ?_, fun s => ⟨s.reinit rom, ?_, s.reinit_spec hr⟩, fun s rest ha => ?_⟩
  · simp only [blockEvent, firstEvent, hblock, resetReply]
  · simp only [blockEvent, State.afterEvent, State.replyTo, hblock, resetReply]
  · exact ⟨(s.withAgenda rest).reinit rom, by simp only [step, ha], (s.withAgenda rest).reinit_spec hr⟩

/-- Settles O55 (R161, R162): the font decides nothing about whether the program image fits. -/
theorem tooLongRomChangesNothing : Obligations.TooLongRomChangesNothing := by
  intro rom
  refine ⟨⟨fun h => initWith_none.1 (h []), fun h font => initWith_none.2 h⟩, fun h s => ?_, fun h => ?_,
    fun e he => ?_⟩
  · simp only [blockEvent, State.afterEvent, State.replyTo, s.reinit_too_long h, initBlock_none.2 h, resetReply]
  · simp only [blockEvent, firstEvent, initBlock_none.2 h, resetReply]
  · cases e
    case init => cases he
    all_goals rfl

/-- A memory in canonical form that reads as unlisted everywhere lists nothing. -/
theorem Memory.eq_nil_of_read {m : Memory} (hm : m.wf) (h : ∀ a, m.read a = unlisted a) : m = [] := by
  cases m with
  | nil => rfl
  | cons cell rest =>
    obtain ⟨-, hlisted⟩ := hm.2 cell List.mem_cons_self
    have hread := h cell.1
    rw [Memory.read_cell, if_pos rfl] at hread
    exact absurd hread hlisted

/-- Without a program image every address reads as unlisted: the font's byte below its length, 0 above. -/
theorem read_initialMemory_empty (a : Nat) : (initialMemory fontTable []).read a = unlisted a := by
  rw [read_initialMemory length_fontTable_le length_nil_le_romMax, if_neg (by simp), unlisted]
  split
  case isTrue => rfl
  case isFalse hout => exact (List.getD_eq_default _ _ (not_lt.1 hout)).symm

/-- Settles O56 (R25, log 4): memory in canonical form that reads as unlisted everywhere is the reset state's. -/
theorem resetStateIsTheEmptyRomReset : Obligations.ResetStateIsTheEmptyRomReset := by
  have hinit := initWith_of_fits fontTable length_nil_le_romMax
  have hwf := initWith_wf length_fontTable_le hinit
  rw [State.setMem_mem] at hwf
  rw [Memory.eq_nil_of_read hwf read_initialMemory_empty] at hinit
  exact hinit

/-! ## Host events -/

/-- Settles O58 (R148) by induction over the ticks: one less each time, and never below 0. -/
theorem ticksStopAtZero : Obligations.TicksStopAtZero := by
  intro n
  induction n with
  | zero => exact fun s => ⟨rfl, rfl⟩
  | succ n ih =>
    intro s
    obtain ⟨hdt, hst⟩ := ih s.tick
    rw [State.tick_dt, countDown_toNat] at hdt
    rw [State.tick_st, countDown_toNat] at hst
    exact ⟨hdt.trans (by omega), hst.trans (by omega)⟩

/-- An agenda with its first event taken keeps every part but the agenda. -/
theorem KeepsAllBut.withAgenda {changed : List Part} {s t : State} (h : KeepsAllBut changed s t)
    (ha : .agenda ∈ changed) (rest : List Event) : KeepsAllBut changed s (t.withAgenda rest) := by
  intro p hp
  have hsame : p.same s t := h p hp
  cases p
  case agenda => exact absurd ha hp
  all_goals exact hsame

/-- A key change keeps every part but the keys. -/
theorem KeepsAllBut.setKey {changed : List Part} {s t : State} (h : KeepsAllBut changed s t) (hkey : .key ∈ changed)
    (k : Fin 16) (down : Bool) : KeepsAllBut changed s (t.setKey k down) := by
  intro p hp
  have hsame : p.same s t := h p hp
  cases p
  case key => exact absurd hkey hp
  all_goals exact hsame

/-- A redraw clear keeps every part but `redraw`. -/
theorem KeepsAllBut.clearRedraw {changed : List Part} {s t : State} (h : KeepsAllBut changed s t)
    (hredraw : .redraw ∈ changed) : KeepsAllBut changed s t.clearRedraw := by
  intro p hp
  have hsame : p.same s t := h p hp
  cases p
  case redraw => exact absurd hredraw hp
  all_goals exact hsame

/-- Settles O59 (R151, R152): each event is one write after the agenda's first event is taken. -/
theorem keyAndRedrawEventsWriteOneSlice : Obligations.KeyAndRedrawEventsWriteOneSlice := by
  intro s rest
  refine ⟨fun k down ha => ⟨(s.withAgenda rest).setKey k down, by simp only [step, ha], ?_, fun j hj => ?_, rfl, rfl,
    rfl, ?_⟩, fun ha => ⟨(s.withAgenda rest).clearRedraw, by simp only [step, ha], rfl, rfl, rfl, rfl, ?_⟩⟩
  · rw [State.keyDown_setKey, if_pos rfl]
  · rw [State.keyDown_setKey, if_neg hj, State.withAgenda_keyDown]
  · exact ((KeepsAllBut.refl _ s).withAgenda (by decide) rest).setKey (by decide) k down
  · exact ((KeepsAllBut.refl _ s).withAgenda (by decide) rest).clearRedraw (by decide)

/-! ## The machine and the block -/

/-- The engine refuses no step (R64). -/
theorem engineStep_ne_refused (s : State) (r : Refusal) : engineStep s ≠ .refused r := by
  obtain ⟨k, -, he⟩ | ⟨w, i, -, -, he⟩ | ⟨w, e, -, -, he⟩ := engineStep_cases s <;> rw [he]
  · exact nofun
  · obtain ⟨kind, hi⟩ | ⟨t, hi⟩ := exec_fault_or_next i s <;> rw [hi] <;> exact nofun
  · exact nofun

theorem State.afterStep_of_next {s t : State} {rnd : Option Byte} (h : engineStep (s.beginStep rnd) = .next t) :
    s.afterStep rnd = t := by
  simp only [State.afterStep, h]

/-- Settles O60 (log 1, log 2): a step event runs the same engine in both, and any other event completes with the
state the block takes. -/
theorem stepAgreesWithTheBlock : Obligations.StepAgreesWithTheBlock := by
  intro s e rest ha
  obtain ⟨hnil, -⟩ | ⟨e', rest', ha', hcase⟩ := step_cases s
  · rw [hnil] at ha; cases ha
  obtain ⟨rfl, rfl⟩ : e' = e ∧ rest' = rest := by simpa [ha] using ha'.symm
  obtain ⟨rnd, rfl, hstep⟩ | ⟨-, hstep⟩ := hcase <;> rw [hstep]
  · refine ⟨fun t h => ?_, fun kind h => ⟨rnd, rfl, ?_⟩, engineStep_ne_refused _⟩
    · simp only [blockEvent, State.afterEvent, State.afterStep_of_next h]
    · simp only [blockEvent, State.afterEvent, State.replyTo, State.afterStep_of_fault h]
      rfl
  · refine ⟨fun t h => ?_, nofun, nofun⟩
    obtain rfl := result_next_inj h
    rfl

end Sys2Proof.Machine
end
